-- ==== Sys2Proof/Word.lean ====
section
/-! DEFINITION. The word types: bytes, the 64-bit lane and register width (R6), the 32-bit command word (R70). -/

namespace Sys2Proof

/-- One input byte, or one byte of a lane (R10). -/
abbrev Byte := BitVec 8

/-- One lane, one register of the window, one bus transfer: 64 bits, unsigned, wrapping (R6, R8). -/
abbrev Word := BitVec 64

/-- A command word in the format CMD32 (R70). -/
abbrev CmdWord := BitVec 32

end Sys2Proof
end

