-- ==== Sys2Proof/Config.lean ====
section
/-! DEFINITION. What the platform or the implementation fixes. The spec leaves two parameters open: the window's base
(HH_BASE, R50), which is a field of State so that every statement holds for each base, and the completion latency (R238),
which the agenda of State carries. No instruction has an undefined result, so there is no free value here. -/

namespace Sys2Proof.Config

/-- The size of the register window in bytes; HH_BASE is a multiple of it (R50). -/
def windowBytes : Nat := 0x100

/-- The one valid access width in bytes (R53). -/
def accessBytes : Nat := 8

/-- DESIGN CHOICE (unsafe, log entry 4): HH_BASE / 0x100 in State.reset. The spec leaves HH_BASE open (R50). -/
def resetPage : Nat := 0

end Sys2Proof.Config
end

