-- ==== Sys2Proof/Syntax.lean ====
section
/-! DEFINITION. The commands: one constructor per row of spec/opcode_table.json (R73). The key, the block and the state a
command works on are implicit (R72), so the only operand is the byte count LEN of two commands. -/

namespace Sys2Proof

/-- A decoded command (R73). -/
inductive Instr where
  /-- RESET, OPC 0x01 (R102). -/
  | reset
  /-- UPDATE_PACKET, OPC 0x02 (R109). -/
  | updatePacket
  /-- UPDATE_REMAINDER, OPC 0x03, with the byte count LEN (R127). -/
  | updateRemainder (len : Nat)
  /-- FINALIZE64, OPC 0x04 (R145). -/
  | finalize64
  /-- FINALIZE128, OPC 0x05 (R146). -/
  | finalize128
  /-- FINALIZE256, OPC 0x06 (R147). -/
  | finalize256
  /-- CAT_START, OPC 0x11 (R170). -/
  | catStart
  /-- CAT_APPEND, OPC 0x12, with the byte count LEN (R172). -/
  | catAppend (len : Nat)
  /-- CAT_FINISH64, OPC 0x14 (R174). -/
  | catFinish64
  /-- CAT_FINISH128, OPC 0x15 (R175). -/
  | catFinish128
  /-- CAT_FINISH256, OPC 0x16 (R176). -/
  | catFinish256
deriving DecidableEq, Repr

end Sys2Proof
end

