-- ==== Sys2Proof/WellFormed.lean ====
section
/-! DEFINITION. Which instruction terms a command word can carry: a byte count fits the six bits of LEN (R71, R72). Whether
the count is in the command's legal range is a matter of admission, not of form (R75). -/

namespace Sys2Proof

/-- The LEN field holds 0..63 (R72). -/
def Instr.lenFits (len : Nat) : Bool := len < 64

/-- The instruction has a command word. -/
def Instr.wf : Instr → Bool
  | .reset => true
  | .updatePacket => true
  | .updateRemainder len => Instr.lenFits len
  | .finalize64 => true
  | .finalize128 => true
  | .finalize256 => true
  | .catStart => true
  | .catAppend len => Instr.lenFits len
  | .catFinish64 => true
  | .catFinish128 => true
  | .catFinish256 => true

end Sys2Proof
end

