-- ==== Sys2Proof/Decode.lean ====
section
/-! DEFINITION. The decoder of R76, total on every 64-bit value written to CMD, rejecting by name; the same on the bytes of
the write as the bus carries them (R52); and, after it, the encoder, written from the field table (R71) and the opcode
map (R73). -/

namespace Sys2Proof

/-- Why a CMD write is an illegal command (R74), or too short to be one. -/
inductive Illegal where
  /-- Bits 63:32 of the write are not zero. -/
  | highBits
  /-- RSVD, bits 31:14, is not zero. -/
  | reserved
  /-- OPC is none of the eleven values of R73. -/
  | opcode
  /-- LEN is not zero on an opcode that has no LEN. -/
  | lenNonzero
  /-- Fewer than eight bytes: a command is exactly one 8-byte write (R70, R53). -/
  | truncated
deriving DecidableEq, Repr

/-- What the decoder answers: `Illegal`, or the command with its LEN (R76). -/
inductive Decoded where
  | illegal (why : Illegal)
  | command (i : Instr)
deriving DecidableEq, Repr

/-- Field OPC, bits 7:0 (R71). -/
def opcField (w : Word) : BitVec 8 := w.extractLsb' 0 8

/-- Field LEN, bits 13:8 (R71). -/
def lenField (w : Word) : BitVec 6 := w.extractLsb' 8 6

/-- Field RSVD, bits 31:14 (R71). -/
def rsvdField (w : Word) : BitVec 18 := w.extractLsb' 14 18

/-- The upper half of the CMD write, bits 63:32 (R70). -/
def highField (w : Word) : BitVec 32 := w.extractLsb' 32 32

/-- The nine opcodes that have no LEN (R73). -/
def lenlessOpcodes : List (BitVec 8 × Instr) :=
  [ (0x01#8, .reset), (0x02#8, .updatePacket),
    (0x04#8, .finalize64), (0x05#8, .finalize128), (0x06#8, .finalize256),
    (0x11#8, .catStart), (0x14#8, .catFinish64), (0x15#8, .catFinish128), (0x16#8, .catFinish256) ]

/-- `Decode(w)` of R76. -/
def decode (w : Word) : Decoded :=
  if highField w ≠ 0 then .illegal .highBits
  else if rsvdField w ≠ 0 then .illegal .reserved
  else if opcField w = 0x03#8 then .command (.updateRemainder (lenField w).toNat)
  else if opcField w = 0x12#8 then .command (.catAppend (lenField w).toNat)
  else match lenlessOpcodes.lookup (opcField w) with
    | none => .illegal .opcode
    | some i => if lenField w ≠ 0 then .illegal .lenNonzero else .command i

/-- The little-endian reading of a byte list (R10, R52); bytes past the eighth are lost. -/
def leWord : List Byte → Word
  | [] => 0
  | b :: bs => b.setWidth 64 ||| (leWord bs <<< 8)

/-- Byte j of a word: bits 8j+7 : 8j (R9, R52). -/
def byteOf (w : Word) (j : Nat) : Byte := w.extractLsb' (8 * j) 8

/-- The bytes of a word as the bus carries them, byte lane 0 first (R52). -/
def wordBytes (w : Word) : List Byte := (List.range 8).map (byteOf w)

/-- The decoder on bytes: the command of the first eight, and the bytes after them. -/
def decodeBytes (bs : List Byte) : Decoded × List Byte :=
  if bs.length < 8 then (.illegal .truncated, bs)
  else (decode (leWord (bs.take 8)), bs.drop 8)

/-- The CMD write that a table word stands for: its low `nbits` bits, zeros above. A value of more than 64 bits is no
command (R70). -/
def tableWrite (nbits w : Nat) : Option Word :=
  if w % 2 ^ nbits < 2 ^ 64 then some (BitVec.ofNat 64 (w % 2 ^ nbits)) else none

/-- The instruction the decoder reads from a word numbered as spec/opcode_table.json numbers it. -/
def decodeTableWord (nbits w : Nat) : Option Instr :=
  match tableWrite nbits w with
  | none => none
  | some v =>
    match decodeBytes (wordBytes v) with
    | (.command i, _) => some i
    | (.illegal _, _) => none

/-- The OPC value of a command (R73). -/
def opcodeOf : Instr → BitVec 8
  | .reset => 0x01
  | .updatePacket => 0x02
  | .updateRemainder _ => 0x03
  | .finalize64 => 0x04
  | .finalize128 => 0x05
  | .finalize256 => 0x06
  | .catStart => 0x11
  | .catAppend _ => 0x12
  | .catFinish64 => 0x14
  | .catFinish128 => 0x15
  | .catFinish256 => 0x16

/-- The LEN value of a command; 0 where the opcode has no LEN (R71). -/
def lenOf : Instr → Nat
  | .reset => 0
  | .updatePacket => 0
  | .updateRemainder len => len
  | .finalize64 => 0
  | .finalize128 => 0
  | .finalize256 => 0
  | .catStart => 0
  | .catAppend len => len
  | .catFinish64 => 0
  | .catFinish128 => 0
  | .catFinish256 => 0

/-- The command word: RSVD = 0, LEN, OPC (R71). -/
def encode (i : Instr) : CmdWord := 0#18 ++ BitVec.ofNat 6 (lenOf i) ++ opcodeOf i

/-- The 64-bit value a host writes to CMD to submit a command word: bits 63:32 are 0 (R70). -/
def cmdWrite (c : CmdWord) : Word := c.setWidth 64

end Sys2Proof
end

