-- ==== Sys2Proof/Machine/State.lean ====
section
/-! DEFINITION. The state of the block (10_state.md), with the model's two fields for its surroundings: the agenda of events
to come and the values the host has read. Plain data. -/

namespace Sys2Proof.Machine

/-- A 4-lane value: a lane group, a block, a key, the DIN or the OUT registers (R6, R20, R28, R29). -/
structure Lanes where
  l0 : Word
  l1 : Word
  l2 : Word
  l3 : Word
deriving DecidableEq, Repr

/-- The HashState: the four lane groups V0, V1, MUL0, MUL1 (R20). -/
structure HashState where
  v0 : Lanes
  v1 : Lanes
  mul0 : Lanes
  mul1 : Lanes
deriving DecidableEq, Repr

/-- The MODE bit (R26). -/
inductive Mode where
  /-- 0: opened by RESET. -/
  | raw
  /-- 1: opened by CAT_START. -/
  | cat
deriving DecidableEq, Repr

/-- The error codes of STATUS.ERRCODE (R201); 7 to 15 are never produced. -/
inductive ErrCode where
  /-- 0, NONE. -/
  | noError
  /-- 1, ILLEGAL_CMD. -/
  | illegalCmd
  /-- 2, NOT_LIVE. -/
  | notLive
  /-- 3, WRONG_MODE. -/
  | wrongMode
  /-- 4, BAD_LEN. -/
  | badLen
  /-- 5, BUS_ACCESS. -/
  | busAccess
  /-- 6, BUSY_WRITE. -/
  | busyWrite
deriving DecidableEq, Repr

/-- A register of the window (R33). -/
inductive Reg where
  | din (i : Fin 4)
  | out (i : Fin 4)
  | cmd
  | status
deriving DecidableEq, Repr

/-- What can happen next to the block (R230): a host access, a turn of the completion engine, power-on reset. -/
inductive Event where
  /-- A host write of `width` bytes at a host address. `data` is the 64-bit payload; a write of another width is dropped
  whatever it carries (R53). -/
  | write (addr width : Nat) (data : Word)
  /-- A host read of `width` bytes at a host address. -/
  | read (addr width : Nat)
  /-- The completion engine's turn (R204); nothing happens while no command is pending. -/
  | complete
  /-- Power-on reset (R230). -/
  | powerOn
deriving DecidableEq, Repr

/-- The state of the block and its surroundings. -/
structure State where
  /-- V0, V1, MUL0, MUL1; `none` is the spec's own "no value" (R38, R39, R145). -/
  hash : Option HashState
  /-- BUF[0..31]; `none` is "no value" (R23, R38), which every cell at CNT and beyond has (R24). -/
  buf : Vector (Option Byte) 32
  /-- CNT (R23). -/
  cnt : BitVec 5
  /-- LIVE (R25). -/
  live : Bool
  /-- MODE (R26). -/
  mode : Mode
  /-- BUSY (R30). -/
  busy : Bool
  /-- PEND (R32); `none` is "no value" (R38), which it has while BUSY = 0. -/
  pend : Option CmdWord
  /-- ERR (R202). -/
  err : Bool
  /-- ERRCODE (R201). -/
  errcode : ErrCode
  /-- DIN0..DIN3 (R28). -/
  din : Lanes
  /-- OUT0..OUT3 (R29). -/
  out : Lanes
  /-- HH_BASE / 0x100 (R50): the platform's, never written. -/
  hhPage : Nat
  /-- The events still to come, first first (R34, R59): the model's own field. -/
  agenda : List Event
  /-- The values the host's reads have returned, newest first (R12): the model's own field. -/
  reads : List Word
deriving DecidableEq, Repr

/-- The stops of the model. The hardware has none: its errors are recorded in STATUS (R200). Each of these is raised only by
a completion that would read what the spec says has no value and is never read (R39, R204), and no state that State.reset
leads to raises one. -/
inductive Fault where
  /-- Raised by the completion of a command that reads the lanes while they have no value (R38, R39). Safe. -/
  | absentLanes
  /-- Raised by the completion of CAT_APPEND or CAT_FINISH when a counted byte of BUF has no value (R24, R38). Safe. -/
  | absentByte
  /-- Raised by a completion turn when BUSY = 1 and PEND has no value (R32, R38). Safe. -/
  | absentPend
  /-- Raised by a completion turn when BUSY = 1 and PEND is no command word (R32, R203). Safe. -/
  | undecodablePend
deriving DecidableEq, Repr

/-- Refusals. Every command has its meaning, so no step of this model refuses. -/
inductive Refusal where
  /-- Raised by an arm of exec whose instruction has no meaning yet (none is left). Safe. -/
  | notModelled (mnemonic : String)
deriving DecidableEq, Repr

/-- Power-on reset values (R38, R230). `hhPage`, `agenda` and `reads` are the platform's and the model's (log entries 2, 3, 4). -/
def State.reset : State where
  hash := none
  buf := Vector.replicate 32 none
  cnt := 0
  live := false
  mode := .raw
  busy := false
  pend := none
  err := false
  errcode := .noError
  din := ⟨0, 0, 0, 0⟩
  out := ⟨0, 0, 0, 0⟩
  hhPage := Config.resetPage
  agenda := []
  reads := []

/-- What a meaning and a step answer. -/
abbrev Result := Host.Outcome State Fault Refusal

end Sys2Proof.Machine
end

