-- ==== Sys2Proof/Machine/Constants.lean ====
section
/-! DEFINITION. The named constant tables the algorithm needs (R7). The source gives no values; the spec supplies them from
general knowledge (R100, R103, R142), so each is one replaceable definition. UNVERIFIED (unsafe, log entry 9). -/

namespace Sys2Proof.Machine

/-- INIT_MUL0 (R100). -/
def initMul0 : Lanes := ⟨0xDBE6D5D5FE4CCE2F, 0xA4093822299F31D0, 0x13198A2E03707344, 0x243F6A8885A308D3⟩

/-- INIT_MUL1 (R100). -/
def initMul1 : Lanes := ⟨0x3BD39E10CB0EF593, 0xC0ACF169B5F18A8C, 0xBE5466CF34E90C6C, 0x452821E638D01377⟩

/-- The zipper-merge byte table ZIP: result byte j is source byte ZIP[j] (R103). -/
def zipTable : List Nat := [3, 12, 2, 5, 14, 1, 15, 0, 11, 4, 10, 13, 9, 6, 8, 7]

/-- The mask of ModularReduction: the low 62 bits (R142). -/
def reductionMask : Word := 0x3FFFFFFFFFFFFFFF

/-- PermuteAndUpdate rounds for 64 bits of output (R6, R140). -/
def rounds64 : Nat := 4

/-- PermuteAndUpdate rounds for 128 bits of output (R6, R141). -/
def rounds128 : Nat := 6

/-- PermuteAndUpdate rounds for 256 bits of output (R6, R143). -/
def rounds256 : Nat := 10

end Sys2Proof.Machine
end

