-- ==== Sys2Proof/Machine/Operands.lean ====
section
/-! DEFINITION. Operand forms: halves and swaps of a lane (R8, R9), bytes and lanes of a block and of DIN (R10, R28, R51, R108),
and the counted bytes of BUF (R24). -/

namespace Sys2Proof.Machine

/-- x[31:0] (R8). -/
def low32 (x : Word) : BitVec 32 := x.extractLsb' 0 32

/-- x[63:32] (R8). -/
def high32 (x : Word) : BitVec 32 := x.extractLsb' 32 32

/-- The one multiply, 32x32 to 64 unsigned: `low32(x) * high32(y)` (R8). -/
def mulLowHigh (x y : Word) : Word := (low32 x).setWidth 64 * (high32 y).setWidth 64

/-- `swap32(x) = (x >> 32) | (x << 32)` (R9). -/
def swap32 (x : Word) : Word := (x >>> 32) ||| (x <<< 32)

/-- Lane i of a 4-lane value (R20). -/
def Lanes.get (v : Lanes) (i : Fin 4) : Word :=
  match i with
  | 0 => v.l0
  | 1 => v.l1
  | 2 => v.l2
  | 3 => v.l3

/-- The 4-lane value with lane i replaced. -/
def Lanes.set (v : Lanes) (i : Fin 4) (x : Word) : Lanes :=
  match i with
  | 0 => { v with l0 := x }
  | 1 => { v with l1 := x }
  | 2 => { v with l2 := x }
  | 3 => { v with l3 := x }

/-- `LE64(b, o)`: eight bytes from offset o, little-endian (R10). -/
def le64 (b : List Byte) (o : Nat) : Word := leWord ((b.drop o).take 8)

/-- `Lanes(blk)` of a 32-byte block (R10, R108). -/
def lanesOf (blk : List Byte) : Lanes := ⟨le64 blk 0, le64 blk 8, le64 blk 16, le64 blk 24⟩

/-- `Byte(L, k) = L[k >> 3][8*(k&7)+7 : 8*(k&7)]`, for k = 0..31 (R10). -/
def laneByte (v : Lanes) (k : Nat) : Byte := byteOf (v.get (Fin.ofNat 4 (k / 8))) (k % 8)

/-- The first n bytes of a 4-lane value: the byte operand of UPDATE_REMAINDER and CAT_APPEND (R28, R72). -/
def laneBytes (v : Lanes) (n : Nat) : List Byte := (List.range n).map (laneByte v)

/-- All the values of a list of cells, or none if a cell has no value. -/
def allValues {α : Type} : List (Option α) → Option (List α)
  | [] => some []
  | none :: _ => none
  | some x :: xs =>
    match allValues xs with
    | none => none
    | some ys => some (x :: ys)

/-- BUF[0..n-1], where each of these bytes has a value (R24). -/
def bufBytes (buf : Vector (Option Byte) 32) (n : Nat) : Option (List Byte) := allValues (buf.toList.take n)

end Sys2Proof.Machine
end

