-- ==== Sys2Proof/Machine/Flags.lean ====
section
/-! DEFINITION. The STATUS register, the block's only flags (R30, R35): the value of each field and the word a read returns. -/

namespace Sys2Proof.Machine

/-- The MODE bit: 0 RAW, 1 CAT (R26). -/
def Mode.bit : Mode → Bool
  | .raw => false
  | .cat => true

/-- The ERRCODE value of a code (R201). -/
def ErrCode.bits : ErrCode → BitVec 4
  | .noError => 0
  | .illegalCmd => 1
  | .notLive => 2
  | .wrongMode => 3
  | .badLen => 4
  | .busAccess => 5
  | .busyWrite => 6

/-- STATUS: BUSY 0, LIVE 1, MODE 2, ERR 3, ERRCODE 7:4, CNT 12:8, 63:13 read as 0 (R30). -/
def statusWord (s : State) : Word :=
  0#51 ++ s.cnt ++ s.errcode.bits ++ BitVec.ofBool s.err ++ BitVec.ofBool s.mode.bit ++ BitVec.ofBool s.live ++
    BitVec.ofBool s.busy

end Sys2Proof.Machine
end

