-- ==== Sys2Proof/Machine/Ops.lean ====
section
/-! DEFINITION. The named operations the meanings and the bus share: updates of State, recording an error (the block's one
way of taking an exception, R202) and the return from it (R206), admission (R203), the register window (R33, R50, R53). -/

namespace Sys2Proof.Machine

/-! ## Updates of State -/

/-- The lanes take the value h. -/
def State.setHash (s : State) (h : HashState) : State := { s with hash := some h }

/-- BUF and CNT take new values (R23). -/
def State.setBuffer (s : State) (buf : Vector (Option Byte) 32) (cnt : BitVec 5) : State := { s with buf := buf, cnt := cnt }

/-- A computation is opened: the lanes hold h, CNT 0, LIVE 1, MODE m (R102, R170). With CNT 0 no cell of BUF holds a defined
value (R24): what it held is dead (R170). -/
def State.startWith (s : State) (h : HashState) (m : Mode) : State :=
  { s with hash := some h, buf := Vector.replicate 32 none, cnt := 0, live := true, mode := m }

/-- A finaliser consumes the state: LIVE 0 and the lanes have no value (R145). -/
def State.consume (s : State) : State := { s with hash := none, live := false }

/-- OUT0..OUT3 take a result (R144). -/
def State.setOut (s : State) (o : Lanes) : State := { s with out := o }

/-- DINi takes a value (R55). -/
def State.setDin (s : State) (i : Fin 4) (v : Word) : State := { s with din := s.din.set i v }

/-- A command is accepted: PEND and BUSY (R203). -/
def State.accept (s : State) (c : CmdWord) : State := { s with pend := some c, busy := true }

/-- A command has completed: BUSY 0 (R204), and with it PEND has no meaning (R32). -/
def State.finish (s : State) : State := { s with busy := false, pend := none }

/-- A read returned v to the host (R12). -/
def State.logRead (s : State) (v : Word) : State := { s with reads := v :: s.reads }

/-- The events that remain. -/
def State.setAgenda (s : State) (es : List Event) : State := { s with agenda := es }

/-- Power-on reset of the block (R38, R230): a pending command is abandoned. The platform's HH_BASE, the events to come and
what the host has read are not the block's and stay (log entry 10). -/
def State.powerOn (s : State) : State :=
  { State.reset with hhPage := s.hhPage, agenda := s.agenda, reads := s.reads }

/-! ## Taking an error, and the return -/

/-- `raise <Error>(code)`: record the error, the first one kept; nothing else changes (R200, R202). -/
def State.record (s : State) (code : ErrCode) : State :=
  if s.err then s else { s with err := true, errcode := code }

/-- The return from an error: ERR and ERRCODE cleared, at the acceptance of RESET or CAT_START (R206). -/
def State.clearError (s : State) : State := { s with err := false, errcode := .noError }

/-! ## Admission -/

/-- The commands that start a computation (R203). -/
def isStart : Instr → Bool
  | .reset => true
  | .updatePacket => false
  | .updateRemainder _ => false
  | .finalize64 => false
  | .finalize128 => false
  | .finalize256 => false
  | .catStart => true
  | .catAppend _ => false
  | .catFinish64 => false
  | .catFinish128 => false
  | .catFinish256 => false

/-- The mode a command belongs to; for a start, the mode it opens (R26, R203). -/
def modeOf : Instr → Mode
  | .reset => .raw
  | .updatePacket => .raw
  | .updateRemainder _ => .raw
  | .finalize64 => .raw
  | .finalize128 => .raw
  | .finalize256 => .raw
  | .catStart => .cat
  | .catAppend _ => .cat
  | .catFinish64 => .cat
  | .catFinish128 => .cat
  | .catFinish256 => .cat

/-- LEN is in the command's legal range (R75, R203). -/
def lenLegal : Instr → Bool
  | .reset => true
  | .updatePacket => true
  | .updateRemainder len => len ≠ 0 && len < 32
  | .finalize64 => true
  | .finalize128 => true
  | .finalize256 => true
  | .catStart => true
  | .catAppend len => len < 33
  | .catFinish64 => true
  | .catFinish128 => true
  | .catFinish256 => true

/-- `OnCmdWrite` of R203 for a decoded command while BUSY = 0: the checks in their order, the first that applies decides. -/
def admission (i : Instr) (s : State) : State :=
  if isStart i then s.clearError.accept (encode i)
  else if s.err then s
  else if !s.live then s.record .notLive
  else if modeOf i ≠ s.mode then s.record .wrongMode
  else if !lenLegal i then s.record .badLen
  else s.accept (encode i)

/-- The two phases of a command: admission while the block is idle (R203), completion while it is pending (R204). -/
def onCommand (i : Instr) (completion : State → Result) (s : State) : Result :=
  if s.busy then completion s else .next (admission i s)

/-- A completion that reads the lanes (R21). -/
def withLanes (s : State) (k : HashState → Result) : Result :=
  match s.hash with
  | none => .fault .absentLanes
  | some h => k h

/-! ## The register window -/

/-- HH_BASE, a multiple of 0x100 (R50). -/
def State.hhBase (s : State) : Nat := Config.windowBytes * s.hhPage

/-- The window offset of a host address, where the access starts in the window (R50). -/
def windowOffset (s : State) (addr : Nat) : Option Nat :=
  if s.hhBase ≤ addr ∧ addr < s.hhBase + Config.windowBytes then some (addr - s.hhBase) else none

/-- An access that starts below the window and runs into it (R53); it is never 8 bytes at a multiple of 8, since HH_BASE is
a multiple of 0x100. -/
def runsIntoWindow (s : State) (addr width : Nat) : Bool := addr < s.hhBase && s.hhBase < addr + width

/-- A valid access: 8 bytes at a multiple of 8, not crossing the window's end (R53). -/
def validAccess (off width : Nat) : Bool :=
  width == Config.accessBytes && off % 8 == 0 && off + width ≤ Config.windowBytes

/-- The register map (R33). -/
def registerMap : List (Nat × Reg) :=
  [ (0x00, .din 0), (0x08, .din 1), (0x10, .din 2), (0x18, .din 3),
    (0x20, .out 0), (0x28, .out 1), (0x30, .out 2), (0x38, .out 3), (0x40, .cmd), (0x48, .status) ]

/-- The register at an offset; none where the window is unmapped (R33). -/
def regAt (off : Nat) : Option Reg := registerMap.lookup off

/-- The offset of CMD (R33). -/
def cmdOffset : Nat := 0x40

/-- The value a valid read of a register returns (R54). -/
def readReg (s : State) : Reg → Word
  | .din i => s.din.get i
  | .out i => s.out.get i
  | .cmd => 0
  | .status => statusWord s

/-- The value a read returns: 0 where the access is invalid or the offset unmapped (R53, R54, R207). -/
def readValue (s : State) (off width : Nat) : Word :=
  if validAccess off width then
    match regAt off with
    | some r => readReg s r
    | none => 0
  else 0

end Sys2Proof.Machine
end

