-- ==== Sys2Proof/Machine/InitRound.lean ====
section
/-! DEFINITION. 40_init_round.md: the initial state, the zipper merge and the round function (R100 to R107), and the commands
RESET and UPDATE_PACKET (R102, R109). -/

namespace Sys2Proof.Machine

/-- `InitState(key)` (R101). -/
def initState (key : Lanes) : HashState where
  v0 := ⟨initMul0.l0 ^^^ key.l0, initMul0.l1 ^^^ key.l1, initMul0.l2 ^^^ key.l2, initMul0.l3 ^^^ key.l3⟩
  v1 := ⟨initMul1.l0 ^^^ swap32 key.l0, initMul1.l1 ^^^ swap32 key.l1,
         initMul1.l2 ^^^ swap32 key.l2, initMul1.l3 ^^^ swap32 key.l3⟩
  mul0 := initMul0
  mul1 := initMul1

/-- `ZipperMerge(hi, lo)`: the bytes of (hi : lo) reordered by ZIP; (addLo, addHi) are the low and the high eight (R103). -/
def zipperMerge (hi lo : Word) : Word × Word :=
  let r := zipTable.map fun j => if j < 8 then byteOf lo j else byteOf hi (j - 8)
  (leWord (r.take 8), leWord (r.drop 8))

/-- One lane position of the four groups. -/
structure LaneState where
  v0 : Word
  v1 : Word
  mul0 : Word
  mul1 : Word
deriving DecidableEq, Repr

/-- Step 1 of Update at one lane position, its four statements in order (R104). -/
def mixLane (a : LaneState) (lane : Word) : LaneState :=
  let v1 := a.v1 + a.mul0 + lane
  let mul0 := a.mul0 ^^^ mulLowHigh v1 a.v0
  let v0 := a.v0 + a.mul1
  let mul1 := a.mul1 ^^^ mulLowHigh v0 v1
  ⟨v0, v1, mul0, mul1⟩

/-- Lane position i of a HashState. -/
def HashState.lane (h : HashState) (i : Fin 4) : LaneState := ⟨h.v0.get i, h.v1.get i, h.mul0.get i, h.mul1.get i⟩

/-- Step 1 of Update on all four lane positions (R104). -/
def mixLanes (h : HashState) (lanes : Lanes) : HashState :=
  let a := mixLane (h.lane 0) lanes.l0
  let b := mixLane (h.lane 1) lanes.l1
  let c := mixLane (h.lane 2) lanes.l2
  let d := mixLane (h.lane 3) lanes.l3
  { v0 := ⟨a.v0, b.v0, c.v0, d.v0⟩, v1 := ⟨a.v1, b.v1, c.v1, d.v1⟩,
    mul0 := ⟨a.mul0, b.mul0, c.mul0, d.mul0⟩, mul1 := ⟨a.mul1, b.mul1, c.mul1, d.mul1⟩ }

/-- The zipper merge of one group added into another, on the halves (lane 1 : lane 0) and (lane 3 : lane 2) (R104). -/
def zipInto (src dst : Lanes) : Lanes :=
  let a := zipperMerge src.l1 src.l0
  let b := zipperMerge src.l3 src.l2
  ⟨dst.l0 + a.1, dst.l1 + a.2, dst.l2 + b.1, dst.l3 + b.2⟩

/-- `Update(H, lanes)`, the round function: mix the lanes, then merge v1 into v0, then the new v0 into v1 (R104). -/
def update (h : HashState) (lanes : Lanes) : HashState :=
  let m := mixLanes h lanes
  let v0 := zipInto m.v1 m.v0
  let v1 := zipInto v0 m.v1
  { m with v0 := v0, v1 := v1 }

/-- The completion of RESET: a RAW computation is opened with the key in DIN (R102). -/
def completeReset (s : State) : Result := .next (s.startWith (initState s.din) .raw).finish

/-- RESET (R102): admitted in every idle state, then completed. -/
def execReset (s : State) : Result := onCommand .reset completeReset s

/-- The completion of UPDATE_PACKET: one Update with the four DIN lanes (R109). -/
def completeUpdatePacket (s : State) : Result :=
  withLanes s fun h => .next (s.setHash (update h s.din)).finish

/-- UPDATE_PACKET (R109). -/
def execUpdatePacket (s : State) : Result := onCommand .updatePacket completeUpdatePacket s

end Sys2Proof.Machine
end

