-- ==== Sys2Proof/Machine/Permute.lean ====
section
/-! DEFINITION. 41_permute_remainder.md: the permutation, the length perturbation, the packing of the remainder (R120 to R126),
and the command UPDATE_REMAINDER (R127). -/

namespace Sys2Proof.Machine

/-- `Permute(v)`: each lane half-swapped, lane i to position (i+2) mod 4 (R120). -/
def permute (v : Lanes) : Lanes := ⟨swap32 v.l2, swap32 v.l3, swap32 v.l0, swap32 v.l1⟩

/-- `PermuteAndUpdate(H)` (R121). -/
def permuteAndUpdate (h : HashState) : HashState := update h (permute h.v0)

/-- A 32-bit value rotated left by c, for 1 <= c <= 31 (R122). -/
def rotateHalf (c : Nat) (x : BitVec 32) : BitVec 32 := (x <<< c) ||| (x >>> (32 - c))

/-- `Rotate32By(c, x)`: both halves rotated left by c, independently (R122). -/
def rotate32By (c : Nat) (x : Word) : Word := rotateHalf c (high32 x) ++ rotateHalf c (low32 x)

/-- The value added to V0 for a remainder of n bytes: (n << 32) + n (R123). -/
def lengthWord (n : Nat) : Word := (BitVec.ofNat 64 n <<< 32) + BitVec.ofNat 64 n

/-- The length perturbation for a remainder of n bytes (R123). -/
def perturb (h : HashState) (n : Nat) : HashState :=
  { h with
    v0 := ⟨h.v0.l0 + lengthWord n, h.v0.l1 + lengthWord n, h.v0.l2 + lengthWord n, h.v0.l3 + lengthWord n⟩
    v1 := ⟨rotate32By n h.v1.l0, rotate32By n h.v1.l1, rotate32By n h.v1.l2, rotate32By n h.v1.l3⟩ }

/-- The packet with the bytes bs written from offset o on. -/
def place (packet : List Byte) (o : Nat) (bs : List Byte) : List Byte :=
  packet.take o ++ bs ++ packet.drop (o + bs.length)

/-- `PackRemainder(b, n)` with n = the number of bytes, for 1 <= n <= 31 (R124). -/
def packRemainder (b : List Byte) : List Byte :=
  let n := b.length
  let m4 := n % 4
  let base := n - m4
  let packet := place (List.replicate 32 0) 0 (b.take base)
  if 16 ≤ n then place packet 28 (b.drop (n - 4))
  else if m4 ≠ 0 then place packet 16 [b.getD base 0, b.getD (base + m4 / 2) 0, b.getD (base + m4 - 1) 0]
  else packet

/-- `UpdateRemainder(H, b, n)` with n = the number of bytes: perturb, then one Update with the packed bytes (R126). -/
def updateRemainder (h : HashState) (b : List Byte) : HashState :=
  update (perturb h b.length) (lanesOf (packRemainder b))

/-- The completion of UPDATE_REMAINDER: the first LEN bytes of DIN absorbed (R127). -/
def completeUpdateRemainder (len : Nat) (s : State) : Result :=
  withLanes s fun h => .next (s.setHash (updateRemainder h (laneBytes s.din len))).finish

/-- UPDATE_REMAINDER (R127). -/
def execUpdateRemainder (len : Nat) (s : State) : Result :=
  onCommand (.updateRemainder len) (completeUpdateRemainder len) s

end Sys2Proof.Machine
end

