-- ==== Sys2Proof/Machine/Finalize.lean ====
section
/-! DEFINITION. 42_finalize.md: the finaliser functions (R140 to R143), the output layout (R144) and the three FINALIZE
commands (R145 to R147). -/

namespace Sys2Proof.Machine

/-- n PermuteAndUpdate rounds (R140, R141, R143). -/
def permuteRounds : Nat → HashState → HashState
  | 0, h => h
  | n + 1, h => permuteRounds n (permuteAndUpdate h)

/-- `Fin64(H)` (R140). -/
def fin64 (h : HashState) : Word :=
  let r := permuteRounds rounds64 h
  r.v0.l0 + r.v1.l0 + r.mul0.l0 + r.mul1.l0

/-- `Fin128(H)` = (w0, w1) (R141). -/
def fin128 (h : HashState) : Word × Word :=
  let r := permuteRounds rounds128 h
  (r.v0.l0 + r.mul0.l0 + r.v1.l2 + r.mul1.l2, r.v0.l1 + r.mul0.l1 + r.v1.l3 + r.mul1.l3)

/-- `ModularReduction(a3u, a2, a1, a0)` = (m1, m0) (R142). -/
def modularReduction (a3u a2 a1 a0 : Word) : Word × Word :=
  let a3 := a3u &&& reductionMask
  (a1 ^^^ ((a3 <<< 1) ||| (a2 >>> 63)) ^^^ ((a3 <<< 2) ||| (a2 >>> 62)), a0 ^^^ (a2 <<< 1) ^^^ (a2 <<< 2))

/-- `Fin256(H)` = (h0, h1, h2, h3) (R143). -/
def fin256 (h : HashState) : Lanes :=
  let r := permuteRounds rounds256 h
  let a := modularReduction (r.v1.l1 + r.mul1.l1) (r.v1.l0 + r.mul1.l0) (r.v0.l1 + r.mul0.l1) (r.v0.l0 + r.mul0.l0)
  let b := modularReduction (r.v1.l3 + r.mul1.l3) (r.v1.l2 + r.mul1.l2) (r.v0.l3 + r.mul0.l3) (r.v0.l2 + r.mul0.l2)
  ⟨a.2, a.1, b.2, b.1⟩

/-- The OUT words of a 64-bit result (R144). -/
def outLayout64 (h : Word) : Lanes := ⟨h, 0, 0, 0⟩

/-- The OUT words of a 128-bit result (R144). -/
def outLayout128 (w : Word × Word) : Lanes := ⟨w.1, w.2, 0, 0⟩

/-- The completion of a FINALIZE command whose result words are f of the lanes: OUT written, the state consumed (R145). -/
def finalizeWith (f : HashState → Lanes) (s : State) : Result :=
  withLanes s fun h => .next ((s.setOut (f h)).consume).finish

/-- The completion of FINALIZE64 (R145). -/
def completeFinalize64 (s : State) : Result := finalizeWith (fun h => outLayout64 (fin64 h)) s

/-- FINALIZE64 (R145). -/
def execFinalize64 (s : State) : Result := onCommand .finalize64 completeFinalize64 s

/-- The completion of FINALIZE128 (R146). -/
def completeFinalize128 (s : State) : Result := finalizeWith (fun h => outLayout128 (fin128 h)) s

/-- FINALIZE128 (R146). -/
def execFinalize128 (s : State) : Result := onCommand .finalize128 completeFinalize128 s

/-- The completion of FINALIZE256 (R147). -/
def completeFinalize256 (s : State) : Result := finalizeWith fin256 s

/-- FINALIZE256 (R147). -/
def execFinalize256 (s : State) : Result := onCommand .finalize256 completeFinalize256 s

end Sys2Proof.Machine
end

