-- ==== Sys2Proof/Machine/Streaming.lean ====
section
/-! DEFINITION. 44_streaming.md: the accumulator step CatAppend (R171), FinishCopy (R177), and the commands CAT_START, CAT_APPEND
and CAT_FINISH64/128/256 (R170, R172, R174 to R176). -/

namespace Sys2Proof.Machine

/-- The accumulator inside one CatAppend: H, BUF and the temporary count c, which may reach 32 (R171). -/
structure Accumulator where
  h : HashState
  buf : Vector (Option Byte) 32
  c : Nat
deriving DecidableEq, Repr

/-- Cells of BUF replaced in order from cell c on; past the last cell nothing is stored. -/
def storeCells (buf : Vector (Option Byte) 32) (c : Nat) : List (Option Byte) → Vector (Option Byte) 32
  | [] => buf
  | x :: xs => storeCells (buf.setIfInBounds c x) (c + 1) xs

/-- `for t: BUF[c + t] <- b[t]` (R171). -/
def storeBytes (buf : Vector (Option Byte) 32) (c : Nat) (b : List Byte) : Vector (Option Byte) 32 :=
  storeCells buf c (b.map some)

/-- The cells at c and beyond hold no defined value (R24). -/
def forgetFrom (buf : Vector (Option Byte) 32) (c : Nat) : Vector (Option Byte) 32 :=
  storeCells buf c (List.replicate (32 - c) none)

/-- The first part of CatAppend: a partial buffer is topped up, and flushed when it is full; with the bytes that remain. None
where the full buffer holds a byte with no value (R171). -/
def topUp (a : Accumulator) (b : List Byte) : Option (Accumulator × List Byte) :=
  if a.c = 0 then some (a, b)
  else
    let k := min b.length (32 - a.c)
    let buf := storeBytes a.buf a.c (b.take k)
    let c := a.c + k
    if c = 32 then
      match bufBytes buf 32 with
      | none => none
      | some block => some (⟨update a.h (lanesOf block), buf, 0⟩, b.drop k)
    else some (⟨a.h, buf, c⟩, b.drop k)

/-- The first q whole 32-byte blocks of a byte string absorbed, in order (R160, R171). -/
def absorbBlocks : Nat → HashState → List Byte → HashState
  | 0, h, _ => h
  | q + 1, h, b => absorbBlocks q (update h (lanesOf (b.take 32))) (b.drop 32)

/-- `CatAppend(b, n)` with n = the number of bytes, any number (R171). On exit `CNT <- c`, so the cells from c on, the absorbed
bytes of a flush among them, hold no defined value (R24). -/
def catAppend (a : Accumulator) (b : List Byte) : Option Accumulator :=
  match topUp a b with
  | none => none
  | some (a, rest) =>
    let q := rest.length / 32
    let tail := rest.drop (32 * q)
    let c := a.c + tail.length
    some ⟨absorbBlocks q a.h rest, forgetFrom (storeBytes a.buf a.c tail) c, c⟩

/-- `FinishCopy()`: a copy of the lanes with the buffered remainder absorbed (R177). None where a counted byte has no value. -/
def finishCopy (h : HashState) (buf : Vector (Option Byte) 32) (cnt : Nat) : Option HashState :=
  if cnt = 0 then some h
  else
    match bufBytes buf cnt with
    | none => none
    | some b => some (updateRemainder h b)

/-- The completion of CAT_START: a CAT computation is opened with the key in DIN (R170). -/
def completeCatStart (s : State) : Result := .next (s.startWith (initState s.din) .cat).finish

/-- CAT_START (R170): admitted in every idle state, then completed. -/
def execCatStart (s : State) : Result := onCommand .catStart completeCatStart s

/-- CatAppend on H, BUF and CNT with the given bytes (R171). -/
def appendBytes (b : List Byte) (s : State) : Result :=
  withLanes s fun h =>
    match catAppend ⟨h, s.buf, s.cnt.toNat⟩ b with
    | none => .fault .absentByte
    | some a => .next ((s.setHash a.h).setBuffer a.buf (BitVec.ofNat 5 a.c)).finish

/-- The completion of CAT_APPEND: the first LEN bytes of DIN appended (R172). -/
def completeCatAppend (len : Nat) (s : State) : Result := appendBytes (laneBytes s.din len) s

/-- CAT_APPEND (R172). -/
def execCatAppend (len : Nat) (s : State) : Result := onCommand (.catAppend len) (completeCatAppend len) s

/-- The completion of a CAT_FINISH command: OUT takes f of the finished copy, the accumulator stays (R174). -/
def finishWith (f : HashState → Lanes) (s : State) : Result :=
  withLanes s fun h =>
    match finishCopy h s.buf s.cnt.toNat with
    | none => .fault .absentByte
    | some hc => .next (s.setOut (f hc)).finish

/-- The completion of CAT_FINISH64 (R174). -/
def completeCatFinish64 (s : State) : Result := finishWith (fun h => outLayout64 (fin64 h)) s

/-- CAT_FINISH64 (R174). -/
def execCatFinish64 (s : State) : Result := onCommand .catFinish64 completeCatFinish64 s

/-- The completion of CAT_FINISH128 (R175). -/
def completeCatFinish128 (s : State) : Result := finishWith (fun h => outLayout128 (fin128 h)) s

/-- CAT_FINISH128 (R175). -/
def execCatFinish128 (s : State) : Result := onCommand .catFinish128 completeCatFinish128 s

/-- The completion of CAT_FINISH256 (R176). -/
def completeCatFinish256 (s : State) : Result := finishWith fin256 s

/-- CAT_FINISH256 (R176). -/
def execCatFinish256 (s : State) : Result := onCommand .catFinish256 completeCatFinish256 s

end Sys2Proof.Machine
end

