-- ==== Sys2Proof/Machine/Dispatch.lean ====
section
/-! DEFINITION. One arm per command. `exec i s` is what the block does with command i: while BUSY = 0 it is the admission of a
CMD write that decodes to i (R203), while BUSY = 1 the completion of the pending command i (R204). -/

namespace Sys2Proof.Machine

def exec (i : Instr) (s : State) : Host.Outcome State Fault Refusal :=
  match i with
  | .reset => Sys2Proof.Machine.execReset s
  | .updatePacket => Sys2Proof.Machine.execUpdatePacket s
  | .updateRemainder len => Sys2Proof.Machine.execUpdateRemainder len s
  | .finalize64 => Sys2Proof.Machine.execFinalize64 s
  | .finalize128 => Sys2Proof.Machine.execFinalize128 s
  | .finalize256 => Sys2Proof.Machine.execFinalize256 s
  | .catStart => Sys2Proof.Machine.execCatStart s
  | .catAppend len => Sys2Proof.Machine.execCatAppend len s
  | .catFinish64 => Sys2Proof.Machine.execCatFinish64 s
  | .catFinish128 => Sys2Proof.Machine.execCatFinish128 s
  | .catFinish256 => Sys2Proof.Machine.execCatFinish256 s

end Sys2Proof.Machine
end

