-- ==== Sys2Proof/Machine/Bus.lean ====
section
/-! DEFINITION. The events of the block: host writes and reads of the window (R53 to R55, R203, R207, R208), the completion of
the pending command (R204), power-on reset (R230). -/

namespace Sys2Proof.Machine

/-- A valid host write of w to CMD (R203): refused while BUSY = 1 (R208), refused if it decodes as Illegal, else admitted. -/
def onCmdWrite (w : Word) (s : State) : Result :=
  if s.busy then .next (s.record .busyWrite)
  else
    match decode w with
    | .illegal _ => .next (s.record .illegalCmd)
    | .command i => exec i s

/-- A valid host write to DINi (R55): stored while BUSY = 0, also while ERR = 1; refused while BUSY = 1 (R208). -/
def onDinWrite (i : Fin 4) (w : Word) (s : State) : Result :=
  if s.busy then .next (s.record .busyWrite) else .next (s.setDin i w)

/-- A host write in the window (R53, R55, R207). -/
def onWrite (off width : Nat) (w : Word) (s : State) : Result :=
  if validAccess off width then
    match regAt off with
    | some (.din i) => onDinWrite i w s
    | some .cmd => onCmdWrite w s
    | some (.out _) => .next (s.record .busAccess)
    | some .status => .next (s.record .busAccess)
    | none => .next (s.record .busAccess)
  else .next (s.record .busAccess)

/-- A host read in the window: no side effect on the block (R54, R207). -/
def onRead (off width : Nat) (s : State) : Result := .next (s.logRead (readValue s off width))

/-- The completion step: nothing while BUSY = 0; the completion of the command in PEND while BUSY = 1 (R204). -/
def onComplete (s : State) : Result :=
  if s.busy then
    match s.pend with
    | none => .fault .absentPend
    | some c =>
      match decode (cmdWrite c) with
      | .illegal _ => .fault .undecodablePend
      | .command i => exec i s
  else .next s

/-- A host write at an address. One that starts below the window and runs into it is an invalid access (R53); one with no
byte in the window is not the block's and changes nothing here (R57, log entry 11). -/
def onHostWrite (addr width : Nat) (w : Word) (s : State) : Result :=
  match windowOffset s addr with
  | some off => onWrite off width w s
  | none => if runsIntoWindow s addr width then .next (s.record .busAccess) else .next s

/-- A host read at an address, as `onHostWrite`: an invalid read returns 0 and has no other effect (R53). -/
def onHostRead (addr width : Nat) (s : State) : Result :=
  match windowOffset s addr with
  | some off => onRead off width s
  | none => if runsIntoWindow s addr width then .next (s.logRead 0) else .next s

/-- One event (R230). -/
def onEvent (e : Event) (s : State) : Result :=
  match e with
  | .write addr width w => onHostWrite addr width w s
  | .read addr width => onHostRead addr width s
  | .complete => onComplete s
  | .powerOn => .next s.powerOn

/-- The next event of the agenda; with no event left, the pending command completes (weak fairness, R238) and an idle block
holds its state (R217). -/
def takeTurn (s : State) : Result :=
  match s.agenda with
  | [] => onComplete s
  | e :: rest => onEvent e (s.setAgenda rest)

/-- The host write that submits a 64-bit value to CMD. -/
def cmdEvent (s : State) (w : Word) : Event := .write (s.hhBase + cmdOffset) Config.accessBytes w

/-- The state in which the very next turn is the CMD write of w, with the block idle so that the write is decoded (log entry 5). -/
def submitNext (s : State) (w : Word) : State :=
  { s with busy := false, agenda := cmdEvent s w :: s.agenda }

end Sys2Proof.Machine
end

