-- ==== Sys2Proof/Machine/Step.lean ====
section
/-! DEFINITION. One step of the machine: one event of the agenda (R59). And how the host of this package places a command so
that the next step runs it. -/

namespace Sys2Proof.Machine

/-- One step (R59, R204, R230). -/
def step (s : State) : Host.Outcome State Fault Refusal := takeTurn s

/-- The state in which the next step is the CMD write of a table word (log entry 5). A word of more than 64 bits is no
command, and nothing is placed. -/
def State.withFetchWord (s : State) (nbits w : Nat) : State :=
  match tableWrite nbits w with
  | none => s
  | some v => submitNext s v

end Sys2Proof.Machine
end

