-- ==== Sys2Proof/Machine/OneShot.lean ====
section
/-! DEFINITION. 43_oneshot.md and the host macros of R79: the reference function every streaming result must equal (R160, R161),
and the host's access sequences as event lists (R78, R79, R162, R173). These are the host's programs; no step reads them but as
the events of the agenda. -/

namespace Sys2Proof.Machine

/-- `ProcessAll(data, size, key)` (R160). -/
def processAll (data : List Byte) (key : Lanes) : HashState :=
  let q := data.length / 32
  let h := absorbBlocks q (initState key) data
  if data.length % 32 = 0 then h else updateRemainder h (data.drop (32 * q))

/-- CatAppend on each byte string of a list, in order (R173, R178). -/
def catAppendAll : Accumulator → List (List Byte) → Option Accumulator
  | a, [] => some a
  | a, b :: bs =>
    match catAppend a b with
    | none => none
    | some a' => catAppendAll a' bs

/-- The three output widths (R6). -/
inductive Width where
  | w64
  | w128
  | w256
deriving DecidableEq, Repr

/-- The OUT words of the finaliser of a width (R140, R141, R143, R144). -/
def finLayout : Width → HashState → Lanes
  | .w64, h => outLayout64 (fin64 h)
  | .w128, h => outLayout128 (fin128 h)
  | .w256, h => fin256 h

/-- `Hash64/128/256(data, key)` as OUT words (R161). -/
def hashOf (w : Width) (data : List Byte) (key : Lanes) : Lanes := finLayout w (processAll data key)

/-- The FINALIZE command of a width (R73). -/
def finalizeCmd : Width → Instr
  | .w64 => .finalize64
  | .w128 => .finalize128
  | .w256 => .finalize256

/-- The CAT_FINISH command of a width (R73). -/
def catFinishCmd : Width → Instr
  | .w64 => .catFinish64
  | .w128 => .catFinish128
  | .w256 => .catFinish256

/-- The words of OUT that hold a result of a width (R144, R162). -/
def resultWords : Width → Lanes → List Word
  | .w64, o => [o.l0]
  | .w128, o => [o.l0, o.l1]
  | .w256, o => [o.l0, o.l1, o.l2, o.l3]

/-! ## Host macros: `base` is HH_BASE -/

/-- `wr REG, v`: one valid 64-bit write (R78). -/
def wr (base off : Nat) (v : Word) : Event := .write (base + off) Config.accessBytes v

/-- `rd REG`: one valid 64-bit read (R78). -/
def rd (base off : Nat) : Event := .read (base + off) Config.accessBytes

/-- `ld_key`: the four DIN registers in order (R79). -/
def ldKey (base : Nat) (key : Lanes) : List Event :=
  [wr base 0x00 key.l0, wr base 0x08 key.l1, wr base 0x10 key.l2, wr base 0x18 key.l3]

/-- `ld_bytes b`, at most 32 bytes, zeros after them (R79). -/
def ldBytes (base : Nat) (b : List Byte) : List Event :=
  ldKey base (lanesOf (b ++ List.replicate (32 - b.length) 0))

/-- `wait`: STATUS reads before the completion turn, that turn, and the read that sees BUSY = 0 (R79). -/
def waitIdle (base polls : Nat) : List Event :=
  List.replicate polls (rd base 0x48) ++ [.complete, rd base 0x48]

/-- A command mnemonic followed by `wait` (R78, R79). -/
def issue (base polls : Nat) (i : Instr) : List Event :=
  wr base cmdOffset (cmdWrite (encode i)) :: waitIdle base polls

/-- The first q blocks of the data, each loaded and absorbed; the j-th command of the sequence is polled `polls j` times (R162). -/
def issueBlocks (base : Nat) (polls : Nat → Nat) : Nat → Nat → List Byte → List Event
  | _, 0, _ => []
  | j, q + 1, data =>
    ldBytes base (data.take 32) ++ issue base (polls j) .updatePacket ++ issueBlocks base polls (j + 1) q (data.drop 32)

/-- The OUT reads of a width (R162). -/
def readResult (base : Nat) : Width → List Event
  | .w64 => [rd base 0x20]
  | .w128 => [rd base 0x20, rd base 0x28]
  | .w256 => [rd base 0x20, rd base 0x28, rd base 0x30, rd base 0x38]

/-- `hash64/128/256 data, key`: the one-shot sequence (R162). -/
def oneShot (base : Nat) (polls : Nat → Nat) (w : Width) (data : List Byte) (key : Lanes) : List Event :=
  let q := data.length / 32
  let tail := data.drop (32 * q)
  ldKey base key ++ issue base (polls 0) .reset ++ issueBlocks base polls 1 q data ++
    (if data.length % 32 = 0 then []
     else ldBytes base tail ++ issue base (polls (q + 1)) (.updateRemainder tail.length)) ++
    issue base (polls (q + 2)) (finalizeCmd w) ++ readResult base w

/-- `cat_append` commands on the given chunks, each of at most 32 bytes, in order (R173). -/
def issueAppends (base : Nat) (polls : Nat → Nat) : Nat → List (List Byte) → List Event
  | _, [] => []
  | j, b :: bs => ldBytes base b ++ issue base (polls j) (.catAppend b.length) ++ issueAppends base polls (j + 1) bs

/-- `append data` of any length: its chunks of at most 32 bytes (R79, R173). The first argument bounds their number. -/
def chunksOf32 : Nat → List Byte → List (List Byte)
  | 0, _ => []
  | k + 1, b => if b = [] then [] else b.take 32 :: chunksOf32 k (b.drop 32)

/-- The streaming sequence: start, append the chunks, finish, read the result (R178). -/
def streamed (base : Nat) (polls : Nat → Nat) (w : Width) (chunks : List (List Byte)) (key : Lanes) : List Event :=
  ldKey base key ++ issue base (polls 0) .catStart ++ issueAppends base polls 1 chunks ++
    issue base (polls (chunks.length + 1)) (catFinishCmd w) ++ readResult base w

/-- `check_ok` on a STATUS value: bit 3, ERR, is 0 (R79). -/
def checkOk (status : Word) : Bool := !status.getLsbD 3

end Sys2Proof.Machine
end

