-- ==== Sys2Proof/Safety.lean ====
section
/-! DEFINITION. What counts as a state the block can be in, and as a safe run, in the terms the statements use. -/

namespace Sys2Proof.Machine

/-- MODE = 0 implies CNT = 0, MODE = 1 implies LIVE = 1 (R27). -/
abbrev State.lifecycleOk (s : State) : Prop := (s.mode = .raw → s.cnt = 0) ∧ (s.mode = .cat → s.live = true)

/-- The lanes have a value exactly while the computation is live (R38, R39, R145). -/
abbrev State.lanesOk (s : State) : Prop := s.live = s.hash.isSome

/-- The counted bytes of BUF have values, and no other cell has one (R24). -/
abbrev State.bufferOk (s : State) : Prop :=
  (bufBytes s.buf s.cnt.toNat).isSome = true ∧ ∀ k : Fin 32, s.cnt.toNat ≤ k.val → s.buf[k] = none

/-- ERRCODE is 0 exactly while ERR is 0 (R30, R202). -/
abbrev State.errorOk (s : State) : Prop := s.err = false ↔ s.errcode = .noError

/-- The command passes the checks that read LIVE, MODE and LEN (R203). -/
def admissible (i : Instr) (s : State) : Bool := isStart i || (s.live && modeOf i == s.mode && lenLegal i)

/-- PEND holds the word of a command the admission checks let through (R32, R203). -/
def pendAdmitted (s : State) : Bool :=
  match s.pend with
  | none => false
  | some c =>
    match decode (cmdWrite c) with
    | .illegal _ => false
    | .command i => admissible i s

/-- While BUSY = 1 the pending command is one that was admitted (R203, R204); while BUSY = 0 PEND has no value (R32). -/
abbrev State.pendingOk (s : State) : Prop := (s.busy = true → pendAdmitted s = true) ∧ (s.busy = false → s.pend = none)

/-- The invariant of the block. -/
abbrev State.Inv (s : State) : Prop :=
  s.lifecycleOk ∧ s.lanesOk ∧ s.bufferOk ∧ s.errorOk ∧ s.pendingOk

/-- An accumulator as CatAppend leaves it: the count below 32 and every counted byte with a value (R171, R179). -/
def Accumulator.ok (a : Accumulator) : Prop := a.c < 32 ∧ (bufBytes a.buf a.c).isSome = true

/-- Carry-less (GF(2)) product of p and q on 256 bits: the sum without carries of q shifted to each set bit of p (R148). -/
def clmul (p q : BitVec 256) : BitVec 256 :=
  (List.range 256).foldl (fun acc k => if p.getLsbD k then acc ^^^ (q <<< k) else acc) 0

/-- n steps from s, stopping at the first fault or refusal. -/
def runSteps (n : Nat) (s : State) : Result := Host.Core.run Sys2Proof.core n s

/-- A run of n steps that meets no fault and no refusal. -/
def SafeRun (n : Nat) (s : State) : Prop := ∃ t, runSteps n s = .next t

/-- The next state of an outcome, for tests and witnesses. -/
def nextOf : Result → Option State
  | .next t => some t
  | .fault _ => none
  | .refused _ => none

end Sys2Proof.Machine
end

