-- ==== Sys2Proof/Certificates/Slice0/Obligations.lean ====
section
/-! DEFINITION. The statements about the hh_c hash core, for the provers. Each docstring names the rules of spec/ it comes from.
An event at the head of the agenda stands for the host access or the completion that happens next (log entry 2), and
`s.setAgenda rest` is the state with that event taken. A statement whose rules the spec marks as its own inference or as taken
from general knowledge (log entry 9), or that rests on a choice of the model, has basis 'derived'. -/

open Sys2Proof Sys2Proof.Machine

/-- UPDATE_PACKET, UPDATE_REMAINDER and the FINALIZE commands: the RAW-mode data commands (R203). -/
def Sys2Proof.RawCommand : Instr → Prop
  | .updatePacket => True
  | .updateRemainder _ => True
  | .finalize64 => True
  | .finalize128 => True
  | .finalize256 => True
  | _ => False

/-- CAT_APPEND and the CAT_FINISH commands: the CAT-mode data commands (R203). -/
def Sys2Proof.CatCommand : Instr → Prop
  | .catAppend _ => True
  | .catFinish64 => True
  | .catFinish128 => True
  | .catFinish256 => True
  | _ => False

/-- The commands that write OUT (R29). -/
def Sys2Proof.WritesOut : Instr → Prop
  | .finalize64 => True
  | .finalize128 => True
  | .finalize256 => True
  | .catFinish64 => True
  | .catFinish128 => True
  | .catFinish256 => True
  | _ => False

/-- A LEN outside the command's legal range (R203). -/
def Sys2Proof.BadLen : Instr → Prop
  | .updateRemainder len => len = 0 ∨ 32 ≤ len
  | .catAppend len => 33 ≤ len
  | _ => False

/-- The value a valid read of each offset returns (R33, R54). -/
def Sys2Proof.windowValue (s : State) (off : Nat) : Word :=
  if off = 0x00 then s.din.l0 else if off = 0x08 then s.din.l1 else if off = 0x10 then s.din.l2
  else if off = 0x18 then s.din.l3 else if off = 0x20 then s.out.l0 else if off = 0x28 then s.out.l1
  else if off = 0x30 then s.out.l2 else if off = 0x38 then s.out.l3 else if off = 0x40 then 0
  else if off = 0x48 then statusWord s else 0

/-- The seed constants, lane 0 first (R100). -/
def Sys2Proof.seed0 : Lanes := ⟨0xDBE6D5D5FE4CCE2F, 0xA4093822299F31D0, 0x13198A2E03707344, 0x243F6A8885A308D3⟩

/-- The seed constants, lane 0 first (R100). -/
def Sys2Proof.seed1 : Lanes := ⟨0x3BD39E10CB0EF593, 0xC0ACF169B5F18A8C, 0xBE5466CF34E90C6C, 0x452821E638D01377⟩

/-- The initial state for the key in DIN: MUL0, MUL1 the seeds, V0 = seed ^ key, V1 = seed ^ key with swapped halves (R101). -/
def Sys2Proof.Opens (h : HashState) (key : Lanes) : Prop :=
  h.mul0 = seed0 ∧ h.mul1 = seed1 ∧
    ∀ i : Fin 4, h.v0.get i = seed0.get i ^^^ key.get i ∧
      h.v1.get i = seed1.get i ^^^ (low32 (key.get i) ++ high32 (key.get i))

/-- n PermuteAndUpdate rounds (R121). -/
def Sys2Proof.afterRounds (n : Nat) (h : HashState) : HashState := permuteAndUpdate^[n] h

/-- The OUT words after Fin64 (R140, R144). -/
def Sys2Proof.result64 (h : HashState) : Lanes :=
  let r := afterRounds 4 h
  ⟨r.v0.l0 + r.v1.l0 + r.mul0.l0 + r.mul1.l0, 0, 0, 0⟩

/-- The OUT words after Fin128 (R141, R144). -/
def Sys2Proof.result128 (h : HashState) : Lanes :=
  let r := afterRounds 6 h
  ⟨r.v0.l0 + r.mul0.l0 + r.v1.l2 + r.mul1.l2, r.v0.l1 + r.mul0.l1 + r.v1.l3 + r.mul1.l3, 0, 0⟩

/-- The OUT words after Fin256 (R143, R144). -/
def Sys2Proof.result256 (h : HashState) : Lanes :=
  let r := afterRounds 10 h
  let a := modularReduction (r.v1.l1 + r.mul1.l1) (r.v1.l0 + r.mul1.l0) (r.v0.l1 + r.mul0.l1) (r.v0.l0 + r.mul0.l0)
  let b := modularReduction (r.v1.l3 + r.mul1.l3) (r.v1.l2 + r.mul1.l2) (r.v0.l3 + r.mul0.l3) (r.v0.l2 + r.mul0.l2)
  ⟨a.2, a.1, b.2, b.1⟩

/-- The finished copy of the lanes: UpdateRemainder with the buffered bytes, if there are any (R177). -/
def Sys2Proof.finished (h : HashState) (buffered : List Byte) : HashState :=
  if buffered.length = 0 then h else updateRemainder h buffered

/-- The OUT words the completion of a FINALIZE or CAT_FINISH command gives in a state that has what it reads (R144, R145,
R174). -/
def Sys2Proof.ResultOf (i : Instr) (s : State) (o : Lanes) : Prop :=
  match i with
  | .finalize64 => ∃ h, s.hash = some h ∧ o = result64 h
  | .finalize128 => ∃ h, s.hash = some h ∧ o = result128 h
  | .finalize256 => ∃ h, s.hash = some h ∧ o = result256 h
  | .catFinish64 => ∃ h xs, s.hash = some h ∧ bufBytes s.buf s.cnt.toNat = some xs ∧ o = result64 (finished h xs)
  | .catFinish128 => ∃ h xs, s.hash = some h ∧ bufBytes s.buf s.cnt.toNat = some xs ∧ o = result128 (finished h xs)
  | .catFinish256 => ∃ h xs, s.hash = some h ∧ bufBytes s.buf s.cnt.toNat = some xs ∧ o = result256 (finished h xs)
  | _ => False

/-- O1. Each word of the opcode map, written out from R73, decodes to its command; for the two LEN opcodes the word is LEN *
256 + OPC for every LEN from 0 to 63; the same word, laid out in the bytes of the CMD write, is read as the table row's
instruction. [R73] -/
def Obligations.OpcodeMapWordsDecode : Prop :=
  decode 0x00000001 = .command .reset ∧ decode 0x00000002 = .command .updatePacket ∧
  decode 0x00000004 = .command .finalize64 ∧ decode 0x00000005 = .command .finalize128 ∧
  decode 0x00000006 = .command .finalize256 ∧ decode 0x00000011 = .command .catStart ∧
  decode 0x00000014 = .command .catFinish64 ∧ decode 0x00000015 = .command .catFinish128 ∧
  decode 0x00000016 = .command .catFinish256 ∧
  (∀ len < 64, decode (BitVec.ofNat 64 (len * 256 + 0x03)) = .command (.updateRemainder len)) ∧
  (∀ len < 64, decode (BitVec.ofNat 64 (len * 256 + 0x12)) = .command (.catAppend len)) ∧
  decodeTableWord 32 0x00000503 = some (.updateRemainder 5) ∧ decodeTableWord 32 0x00002012 = some (.catAppend 32)

/-- O2. For every well-formed command (all eleven, with every LEN from 0 to 63) the decoder reads its encoded word,
zero-extended to the CMD write, as that command, and reads the same from the bytes of the write. -/
def Obligations.DecodeOfEncodeIsTheCommand : Prop :=
  ∀ i : Instr, i.wf = true →
    decode (cmdWrite (encode i)) = .command i ∧ decodeTableWord 32 (encode i).toNat = some i

/-- O3. If a 64-bit CMD write decodes to a command, that command is well-formed and the write is its encoded word with zeros
above, so no bit of the write is dropped. -/
def Obligations.EncodeOfDecodeIsTheWrite : Prop :=
  ∀ (w : Word) (i : Instr), decode w = .command i → i.wf = true ∧ w = cmdWrite (encode i)

/-- O4. Reading the fields by division: a write is illegal exactly when bits 63:32 are nonzero, or RSVD is nonzero, or OPC
is none of the eleven values, or OPC is one of the nine without LEN and LEN is nonzero; an illegal write to CMD while
BUSY = 0 records ILLEGAL_CMD and does nothing else. [R74] -/
def Obligations.IllegalEncodingsAreExactlyTheListedOnes : Prop :=
  (∀ w : Word, (∃ why, decode w = .illegal why) ↔
    (w.toNat / 2 ^ 32 ≠ 0 ∨ w.toNat / 2 ^ 14 % 2 ^ 18 ≠ 0 ∨
      w.toNat % 256 ∉ [0x01, 0x02, 0x03, 0x04, 0x05, 0x06, 0x11, 0x12, 0x14, 0x15, 0x16] ∨
      (w.toNat % 256 ∈ [0x01, 0x02, 0x04, 0x05, 0x06, 0x11, 0x14, 0x15, 0x16] ∧ w.toNat / 256 % 64 ≠ 0))) ∧
  ∀ (s : State) (w : Word) (why : Illegal) (rest : List Event),
    s.busy = false → decode w = .illegal why → s.agenda = wr s.hhBase 0x40 w :: rest →
      step s = .next ((s.setAgenda rest).record .illegalCmd)

/-- O5. UPDATE_REMAINDER with LEN 0 or 32 to 63 and CAT_APPEND with LEN 33 to 63 decode; submitted to an idle, error-free,
live block in their mode they record BAD_LEN and change nothing else. [R75] -/
def Obligations.LenOutOfRangeDecodesAndIsRefused : Prop :=
  (∀ len, (len = 0 ∨ 32 ≤ len) → len < 64 →
    decode (BitVec.ofNat 64 (len * 256 + 0x03)) = .command (.updateRemainder len) ∧
    ∀ s : State, s.busy = false → s.err = false → s.live = true → s.mode = .raw →
      exec (.updateRemainder len) s = .next { s with err := true, errcode := .badLen }) ∧
  (∀ len, 33 ≤ len → len < 64 →
    decode (BitVec.ofNat 64 (len * 256 + 0x12)) = .command (.catAppend len) ∧
    ∀ s : State, s.busy = false → s.err = false → s.live = true → s.mode = .cat →
      exec (.catAppend len) s = .next { s with err := true, errcode := .badLen })

/-- O6. When the next event is a write of w to CMD, BUSY = 0 and w decodes to i, the step is exec i on the state with that
event taken; when BUSY = 1, PEND decodes to i and the next event is the completion turn (or no event is left), the step
is exec i as well; and the state made by withFetchWord runs exactly the table word's instruction. While BUSY = 0 a
completion turn changes nothing but the agenda, and with no event left the state stays as it is: an idle block holds its
state. That one exec holds both phases, and that the agenda orders the events, are the model's choices (log entries 1, 2
and 5). -/
def Obligations.StepRunsTheDecodedCommand : Prop :=
  (∀ (s : State) (w : Word) (i : Instr) (rest : List Event),
    s.busy = false → decode w = .command i → s.agenda = wr s.hhBase 0x40 w :: rest →
      step s = exec i (s.setAgenda rest)) ∧
  (∀ (s : State) (c : CmdWord) (i : Instr) (rest : List Event),
    s.busy = true → s.pend = some c → decode (cmdWrite c) = .command i → s.agenda = .complete :: rest →
      step s = exec i (s.setAgenda rest)) ∧
  (∀ (s : State) (c : CmdWord) (i : Instr),
    s.busy = true → s.pend = some c → decode (cmdWrite c) = .command i → s.agenda = [] → step s = exec i s) ∧
  (∀ (s : State) (nbits w : Nat) (i : Instr), decodeTableWord nbits w = some i →
      step (s.withFetchWord nbits w) = exec i { s with busy := false }) ∧
  (∀ (s : State) (rest : List Event), s.busy = false → s.agenda = .complete :: rest → step s = .next (s.setAgenda rest)) ∧
  (∀ s : State, s.busy = false → s.agenda = [] → step s = .next s)

/-- O7. For every state and every value w written to CMD: BUSY_WRITE while BUSY = 1; else ILLEGAL_CMD if w is illegal; else
a start command is accepted with ERR and ERRCODE cleared; else dropped while ERR = 1; else NOT_LIVE; else WRONG_MODE;
else BAD_LEN; else accepted. Acceptance sets PEND to the command word and BUSY to 1 and changes nothing else. [R203] -/
def Obligations.AdmissionFollowsItsOrder : Prop :=
  ∀ (s s' : State) (w : Word) (rest : List Event), s.agenda = wr s.hhBase 0x40 w :: rest → s' = s.setAgenda rest →
    (s.busy = true → step s = .next (s'.record .busyWrite)) ∧
    (s.busy = false →
      (∀ why, decode w = .illegal why → step s = .next (s'.record .illegalCmd)) ∧
      ∀ i, decode w = .command i →
        ((i = .reset ∨ i = .catStart) →
          step s = .next { s' with err := false, errcode := .noError, pend := some (w.setWidth 32), busy := true }) ∧
        ((RawCommand i ∨ CatCommand i) →
          (s.err = true → step s = .next s') ∧
          (s.err = false →
            (s.live = false → step s = .next (s'.record .notLive)) ∧
            (s.live = true →
              ((RawCommand i ∧ s.mode = .cat ∨ CatCommand i ∧ s.mode = .raw) → step s = .next (s'.record .wrongMode)) ∧
              ((RawCommand i ∧ s.mode = .raw ∨ CatCommand i ∧ s.mode = .cat) →
                (BadLen i → step s = .next (s'.record .badLen)) ∧
                (¬ BadLen i → step s = .next { s' with pend := some (w.setWidth 32), busy := true }))))))

/-- O8. Recording a code with ERR = 0 sets ERR to 1 and ERRCODE to the code and leaves the rest of the state; with ERR = 1
nothing changes. [R202] -/
def Obligations.FirstErrorIsKept : Prop :=
  ∀ (s : State) (code : ErrCode),
    (s.err = false → s.record code = { s with err := true, errcode := code }) ∧ (s.err = true → s.record code = s)

/-- O9. Over every step from every state with ERR = 1: ERR and ERRCODE stay as they are, unless the event is power-on reset
or a CMD write, while BUSY = 0, of a well-formed RESET or CAT_START, and then both are cleared. [R206] -/
def Obligations.ErrorsClearOnlyByAStartOrPowerOn : Prop :=
  ∀ s t : State, step s = .next t → s.err = true →
    (t.err = true ∧ t.errcode = s.errcode) ∨
    (t.err = false ∧ t.errcode = .noError ∧
      ((∃ rest, s.agenda = .powerOn :: rest) ∨
        ∃ w i rest, s.agenda = wr s.hhBase 0x40 w :: rest ∧ s.busy = false ∧ decode w = .command i ∧
          (i = .reset ∨ i = .catStart)))

/-- O10. Over every state and every host write that gives a next state: apart from the event taken, either nothing but ERR
and ERRCODE changes, or the write's value is stored in one DIN register while BUSY = 0, or BUSY was 0, the value decodes
to a command, and PEND, BUSY, ERR and ERRCODE alone change. -/
def Obligations.WriteRefusedStoredOrAccepted : Prop :=
  ∀ (s t : State) (addr width : Nat) (v : Word) (rest : List Event),
    s.agenda = .write addr width v :: rest → step s = .next t →
      (t = { s with agenda := rest, err := t.err, errcode := t.errcode }) ∨
      (s.busy = false ∧ ∃ i : Fin 4, addr = s.hhBase + 8 * i.val ∧ width = 8 ∧
        t = { s with agenda := rest, din := s.din.set i v }) ∨
      (s.busy = false ∧ addr = s.hhBase + 0x40 ∧ width = 8 ∧ ∃ i, decode v = .command i ∧
        t = { s with agenda := rest, pend := some (encode i), busy := true, err := t.err, errcode := t.errcode })

/-- O11. While BUSY = 1 a valid write to DIN0..DIN3 or CMD is dropped and records BUSY_WRITE, the pending command
unaffected; a read of STATUS returns a word with BUSY = 1 and the present LIVE, MODE and CNT, and a read of OUTi the
present OUT word. [R208] -/
def Obligations.WritesWhileBusyAreRefused : Prop :=
  ∀ (s : State) (rest : List Event), s.busy = true →
    (∀ off v, (off = 0x00 ∨ off = 0x08 ∨ off = 0x10 ∨ off = 0x18 ∨ off = 0x40) →
      s.agenda = wr s.hhBase off v :: rest → step s = .next ((s.setAgenda rest).record .busyWrite)) ∧
    (s.agenda = rd s.hhBase 0x48 :: rest →
      ∃ v : Word, step s = .next ((s.setAgenda rest).logRead v) ∧ v.getLsbD 0 = true ∧ v.getLsbD 1 = s.live ∧
        (v.getLsbD 2 = true ↔ s.mode = .cat) ∧ v.extractLsb' 8 5 = s.cnt) ∧
    (∀ i : Fin 4, s.agenda = rd s.hhBase (0x20 + 8 * i.val) :: rest →
      step s = .next ((s.setAgenda rest).logRead (s.out.get i)))

/-- O12. For every access that reaches the window, one that starts in it or one that starts below it and runs into it, of
every width: where it is not 8 bytes at an offset that is a multiple of 8, inside the window, it is, as a write, dropped
with BUS_ACCESS recorded, at any time, and, as a read, answered with 0 and no other effect. That an access that starts
below the window, and one of width 0 in it, is an invalid access of R53 is the model's reading (log entry 11). -/
def Obligations.InvalidAccessesAreRefused : Prop :=
  ∀ (s : State) (addr width : Nat) (v : Word) (rest : List Event),
    (s.hhBase ≤ addr ∨ s.hhBase < addr + width) → addr < s.hhBase + 0x100 →
    ¬ (width = 8 ∧ s.hhBase ≤ addr ∧ (addr - s.hhBase) % 8 = 0 ∧ addr + width ≤ s.hhBase + 0x100) →
      (s.agenda = .write addr width v :: rest → step s = .next ((s.setAgenda rest).record .busAccess)) ∧
      (s.agenda = .read addr width :: rest → step s = .next ((s.setAgenda rest).logRead 0))

/-- O13. At every aligned offset of the window a 64-bit read returns DIN, OUT, 0 for CMD, the STATUS word, or 0 where
unmapped, and changes nothing of the block; repeated at once it returns the same value. [R54] -/
def Obligations.ReadsReturnRegistersAndChangeNothing : Prop :=
  ∀ (s : State) (off : Nat) (rest : List Event), off < 0x100 → off % 8 = 0 →
    (s.agenda = rd s.hhBase off :: rest → step s = .next ((s.setAgenda rest).logRead (windowValue s off))) ∧
    (s.agenda = rd s.hhBase off :: rd s.hhBase off :: rest →
      runSteps 2 s = .next (((s.setAgenda rest).logRead (windowValue s off)).logRead (windowValue s off)))

/-- O14. At every aligned offset of the window: a write to DINi stores the value while BUSY = 0, ERR or not, and records
BUSY_WRITE while BUSY = 1; a write to CMD is the submission of its value; a write to OUT, STATUS or an unmapped offset
records BUS_ACCESS. [R55] -/
def Obligations.WritesReachDinAndCmdOnly : Prop :=
  ∀ (s s' : State) (off : Nat) (v : Word) (rest : List Event), off < 0x100 → off % 8 = 0 →
    s.agenda = wr s.hhBase off v :: rest → s' = s.setAgenda rest →
      (off < 0x20 → s.busy = true → step s = .next (s'.record .busyWrite)) ∧
      (off = 0x00 → s.busy = false → step s = .next { s' with din := { s.din with l0 := v } }) ∧
      (off = 0x08 → s.busy = false → step s = .next { s' with din := { s.din with l1 := v } }) ∧
      (off = 0x10 → s.busy = false → step s = .next { s' with din := { s.din with l2 := v } }) ∧
      (off = 0x18 → s.busy = false → step s = .next { s' with din := { s.din with l3 := v } }) ∧
      (off = 0x40 → step s = onCmdWrite v s') ∧
      (0x20 ≤ off → off ≠ 0x40 → step s = .next (s'.record .busAccess))

/-- O15. Bit 0 is BUSY, 1 LIVE, 2 MODE (1 for CAT), 3 ERR, bits 7:4 ERRCODE with a value of at most 6 (NONE = 0, ILLEGAL_CMD
= 1, NOT_LIVE = 2, WRONG_MODE = 3, BAD_LEN = 4, BUS_ACCESS = 5, BUSY_WRITE = 6; 0 while ERR = 0, in every state that
keeps ERRCODE so), bits 12:8 CNT, bits 63:13 zero; a read at 0x48 returns that word, and a write there is an invalid
access. -/
def Obligations.StatusWordFields : Prop :=
  (∀ s : State, (statusWord s).getLsbD 0 = s.busy ∧ (statusWord s).getLsbD 1 = s.live ∧
    ((statusWord s).getLsbD 2 = true ↔ s.mode = .cat) ∧ (statusWord s).getLsbD 3 = s.err ∧
    (statusWord s).extractLsb' 4 4 = s.errcode.bits ∧ s.errcode.bits.toNat ≤ 6 ∧
    (s.errorOk → s.err = false → (statusWord s).extractLsb' 4 4 = 0) ∧
    (statusWord s).extractLsb' 8 5 = s.cnt ∧ (statusWord s).extractLsb' 13 51 = 0) ∧
  (ErrCode.noError.bits = 0 ∧ ErrCode.illegalCmd.bits = 1 ∧ ErrCode.notLive.bits = 2 ∧ ErrCode.wrongMode.bits = 3 ∧
    ErrCode.badLen.bits = 4 ∧ ErrCode.busAccess.bits = 5 ∧ ErrCode.busyWrite.bits = 6) ∧
  (∀ (s : State) (rest : List Event), s.agenda = rd s.hhBase 0x48 :: rest →
    step s = .next ((s.setAgenda rest).logRead (statusWord s))) ∧
  (∀ (s : State) (v : Word) (rest : List Event), s.agenda = wr s.hhBase 0x48 v :: rest →
    step s = .next ((s.setAgenda rest).record .busAccess))

/-- O16. After power-on reset CNT, LIVE, BUSY, ERR, ERRCODE, DIN and OUT are 0 and MODE is RAW; the lanes, every byte of BUF
and PEND have no value; STATUS reads 0. [R38] -/
def Obligations.PowerOnValuesAtReset : Prop :=
  State.reset.hash = none ∧ (∀ k : Fin 32, State.reset.buf[k] = none) ∧ State.reset.cnt = 0 ∧ State.reset.live = false ∧
  State.reset.mode = .raw ∧ State.reset.busy = false ∧ State.reset.pend = none ∧ State.reset.err = false ∧
  State.reset.errcode = .noError ∧ (∀ i : Fin 4, State.reset.din.get i = 0 ∧ State.reset.out.get i = 0) ∧
  statusWord State.reset = 0

/-- O17. In every state, busy or not, the power-on event leads to the state whose registers are those after power-on reset.
That HH_BASE, the events to come and the values already read stay as they are is the model's choice (log entry 10). -/
def Obligations.PowerOnAbandonsThePendingCommand : Prop :=
  ∀ (s : State) (rest : List Event), s.agenda = .powerOn :: rest →
    step s = .next { State.reset with hhPage := s.hhPage, agenda := rest, reads := s.reads }

/-- O18. HH_BASE is a multiple of 0x100; a host address has offset off exactly when it is HH_BASE + off with off below
0x100, and is then as aligned as its offset. An access with no byte in the window changes nothing but the agenda: that
clause is the model's reading (log entry 11). -/
def Obligations.WindowIsAtHhBase : Prop :=
  ∀ s : State, s.hhBase % 0x100 = 0 ∧
    (∀ addr off, windowOffset s addr = some off ↔ addr = s.hhBase + off ∧ off < 0x100) ∧
    (∀ addr off, windowOffset s addr = some off → addr % 8 = off % 8) ∧
    ∀ (addr width : Nat) (v : Word) (rest : List Event), (addr < s.hhBase ∧ addr + width ≤ s.hhBase ∨ s.hhBase + 0x100 ≤ addr) →
      (s.agenda = .write addr width v :: rest ∨ s.agenda = .read addr width :: rest) → step s = .next (s.setAgenda rest)

/-- O19. In every state with BUSY = 1 the completion of RESET, and of CAT_START, gives the state in which the sixteen lanes
are those of InitState(DIN), CNT is 0, LIVE 1, MODE RAW (CAT for CAT_START) and BUSY 0, DIN, OUT, ERR and ERRCODE
unchanged. That the cells of BUF, dead at CNT 0, have no value is the model's reading of R24 (log entry 7). Representing
the meaningless PEND of an idle block as no value is the model's reading of R32 (log entry 8). The seeds and the
derivation are the spec's from general knowledge (R100, R101, log entry 9). -/
def Obligations.StartCommandsComplete : Prop :=
  ∀ s : State, s.busy = true → ∃ h : HashState, Opens h s.din ∧
    exec .reset s = .next { s with
      hash := some h, buf := Vector.replicate 32 none, cnt := 0, live := true, mode := .raw, busy := false, pend := none } ∧
    exec .catStart s = .next { s with
      hash := some h, buf := Vector.replicate 32 none, cnt := 0, live := true, mode := .cat, busy := false, pend := none }

/-- O20. In every state with BUSY = 0, live or not, in either mode, with or without an error, RESET and CAT_START are
accepted: ERR and ERRCODE cleared, PEND the command word, BUSY 1, nothing else changed. -/
def Obligations.StartCommandsAreAlwaysAdmitted : Prop :=
  ∀ s : State, s.busy = false →
    exec .reset s = .next { s with err := false, errcode := .noError, pend := some 0x00000001, busy := true } ∧
    exec .catStart s = .next { s with err := false, errcode := .noError, pend := some 0x00000011, busy := true }

/-- O21. In every state with BUSY = 1 whose lanes have a value, the completion of UPDATE_PACKET replaces the lanes by Update
of them with DIN0..DIN3, sets BUSY to 0, and changes nothing else. Representing the meaningless PEND of an idle block as
no value is the model's reading of R32 (log entry 8). -/
def Obligations.UpdatePacketCompletes : Prop :=
  ∀ (s : State) (h : HashState), s.busy = true → s.hash = some h →
    exec .updatePacket s = .next { s with hash := some (update h s.din), busy := false, pend := none }

/-- O22. In every state with BUSY = 1 whose lanes have a value and for every LEN from 1 to 31, the completion of
UPDATE_REMAINDER perturbs the lanes by LEN, runs Update with the lanes of the packed first LEN bytes of DIN, sets BUSY
to 0, and changes nothing else: LIVE stays 1. Representing the meaningless PEND of an idle block as no value is the
model's reading of R32 (log entry 8). -/
def Obligations.UpdateRemainderCompletes : Prop :=
  ∀ (s : State) (h : HashState) (len : Nat), s.busy = true → s.hash = some h → 1 ≤ len → len ≤ 31 →
    exec (.updateRemainder len) s =
      .next { s with
        hash := some (update (perturb h len) (lanesOf (packRemainder ((List.range len).map (laneByte s.din)))))
        busy := false
        pend := none }

/-- O23. In every state with BUSY = 1 whose lanes have a value, the completion of FINALIZE64, 128 or 256 writes OUT with the
lane sums after 4, 6 or 10 PermuteAndUpdate rounds (256 bits through the modular reduction; unused words 0), sets LIVE
to 0, leaves the lanes without value, sets BUSY to 0, and changes nothing else. Representing the meaningless PEND of an
idle block as no value is the model's reading of R32 (log entry 8). The reduction's operands are the spec's from general
knowledge (R143, log entry 9). -/
def Obligations.FinalizeCommandsComplete : Prop :=
  ∀ (s : State) (h : HashState), s.busy = true → s.hash = some h →
    exec .finalize64 s = .next { s with out := result64 h, hash := none, live := false, busy := false, pend := none } ∧
    exec .finalize128 s = .next { s with out := result128 h, hash := none, live := false, busy := false, pend := none } ∧
    exec .finalize256 s = .next { s with out := result256 h, hash := none, live := false, busy := false, pend := none }

/-- O24. In every state with BUSY = 1 whose lanes and counted BUF bytes have values and for every LEN from 0 to 32: with ys
the buffered bytes followed by the first LEN bytes of DIN, the completion leaves the lanes and buffers ys if ys is
shorter than 32, else runs one Update with the first 32 bytes of ys and buffers the rest; CNT is the number of bytes
buffered, BUSY 0, and nothing else changes. That no other cell of BUF keeps a value is the model's reading of R24 (log
entry 7). Representing the meaningless PEND of an idle block as no value is the model's reading of R32 (log entry 8). -/
def Obligations.CatAppendCompletes : Prop :=
  ∀ (s : State) (h : HashState) (xs ys : List Byte) (len : Nat), s.busy = true → s.hash = some h →
    bufBytes s.buf s.cnt.toNat = some xs → len ≤ 32 → ys = xs ++ (List.range len).map (laneByte s.din) →
      ∃ (buf : Vector (Option Byte) 32) (cnt : BitVec 5),
        cnt.toNat = ys.length % 32 ∧ bufBytes buf cnt.toNat = some (ys.drop (32 * (ys.length / 32))) ∧
        (∀ k : Fin 32, cnt.toNat ≤ k.val → buf[k] = none) ∧
        exec (.catAppend len) s =
          .next { s with
            hash := some (if ys.length < 32 then h else update h (lanesOf (ys.take 32)))
            buf := buf
            cnt := cnt
            busy := false
            pend := none }

/-- O25. In every state with BUSY = 1 whose lanes and counted BUF bytes have values, the completion of CAT_FINISH64, 128 or
256 writes OUT with the finaliser's words of the finished copy (UpdateRemainder with the buffered bytes, if there are
any), sets BUSY to 0, and changes nothing else: lanes, BUF, CNT, LIVE and MODE stay. Representing the meaningless PEND
of an idle block as no value is the model's reading of R32 (log entry 8). -/
def Obligations.CatFinishCommandsComplete : Prop :=
  ∀ (s : State) (h : HashState) (xs : List Byte), s.busy = true → s.hash = some h →
    bufBytes s.buf s.cnt.toNat = some xs →
      exec .catFinish64 s = .next { s with out := result64 (finished h xs), busy := false, pend := none } ∧
      exec .catFinish128 s = .next { s with out := result128 (finished h xs), busy := false, pend := none } ∧
      exec .catFinish256 s = .next { s with out := result256 (finished h xs), busy := false, pend := none }

/-- O26. For every command and every state with BUSY = 1, if the completion gives a next state: BUSY is 0 and PEND has no
value; DIN, ERR, ERRCODE and the model's fields are unchanged (a completion never records an error); OUT changes only by
FINALIZE and CAT_FINISH, LIVE only by the starts and FINALIZE, MODE only by the starts, BUF and CNT only by the starts
and CAT_APPEND, and the lanes not by CAT_FINISH. That the starts leave no cell of BUF a value, where R37 has BUF
untouched and R24 undefined, is the model's reading (log entry 7), and so is PEND (R32, log entry 8). -/
def Obligations.CompletionFollowsTheAccessMatrix : Prop :=
  ∀ (i : Instr) (s t : State), s.busy = true → exec i s = .next t →
    t.busy = false ∧ t.din = s.din ∧ t.pend = none ∧ t.err = s.err ∧ t.errcode = s.errcode ∧
    t.hhPage = s.hhPage ∧ t.agenda = s.agenda ∧ t.reads = s.reads ∧
    (¬ WritesOut i → t.out = s.out) ∧
    ((CatCommand i ∨ i = .updatePacket ∨ ∃ len, i = .updateRemainder len) → t.live = s.live) ∧
    ((RawCommand i ∨ CatCommand i) → t.mode = s.mode) ∧
    ((RawCommand i ∨ CatCommand i ∧ WritesOut i) → t.buf = s.buf) ∧
    ((RawCommand i ∨ CatCommand i ∧ WritesOut i) → t.cnt = s.cnt) ∧
    (CatCommand i ∧ WritesOut i → t.hash = s.hash)

/-- O27. Over every step from every state: OUT stays as it is, unless the event is power-on reset, or BUSY was 1, PEND holds
a FINALIZE or CAT_FINISH command, and the step is its completion. -/
def Obligations.OutChangesOnlyByAResult : Prop :=
  ∀ s t : State, step s = .next t →
    t.out = s.out ∨ (∃ rest, s.agenda = .powerOn :: rest) ∨
    (s.busy = true ∧ t.busy = false ∧ (s.agenda = [] ∨ ∃ rest, s.agenda = .complete :: rest) ∧
      ∃ c i, s.pend = some c ∧ decode (cmdWrite c) = .command i ∧ WritesOut i)

/-- O28. From every state with BUSY = 1, a host access changes none of the lanes, BUF, CNT, LIVE, MODE, BUSY, PEND, DIN,
OUT: the operands of the pending command are those at its acceptance. -/
def Obligations.OperandsFrozenWhileBusy : Prop :=
  ∀ (s t : State) (e : Event) (rest : List Event), s.busy = true → s.agenda = e :: rest → e ≠ .complete → e ≠ .powerOn →
    step s = .next t →
      t.hash = s.hash ∧ t.buf = s.buf ∧ t.cnt = s.cnt ∧ t.live = s.live ∧ t.mode = s.mode ∧ t.busy = true ∧
      t.pend = s.pend ∧ t.din = s.din ∧ t.out = s.out

/-- O29. From every idle state with ERR = 1, every command other than RESET and CAT_START leaves the whole state as it is,
so no data reaches the lanes and no result is produced; a write to a DIN register is stored. -/
def Obligations.NoDataCommandWhileErr : Prop :=
  ∀ s : State, s.busy = false → s.err = true →
    (∀ i, (RawCommand i ∨ CatCommand i) → exec i s = .next s) ∧
    ∀ (i : Fin 4) (v : Word) (rest : List Event), s.agenda = wr s.hhBase (8 * i.val) v :: rest →
      step s = .next { s with agenda := rest, din := s.din.set i v }

/-- O30. After the completion of a FINALIZE command from any state whose lanes have a value, with ERR = 0, every command
other than RESET and CAT_START records NOT_LIVE and changes nothing else, OUT among it; in particular a second FINALIZE
gives no second hash. -/
def Obligations.FinalizedStateCannotBeReused : Prop :=
  ∀ (s : State) (h : HashState) (i j : Instr), s.busy = true → s.err = false → s.hash = some h →
    (i = .finalize64 ∨ i = .finalize128 ∨ i = .finalize256) → (RawCommand j ∨ CatCommand j) →
      ∃ t, exec i s = .next t ∧ exec j t = .next { t with err := true, errcode := .notLive }

/-- O31. After power-on reset, for every HH_BASE and every agenda: MODE RAW with CNT 0, no lanes and LIVE 0, no counted
byte, ERRCODE 0 with ERR 0, nothing pending. -/
def Obligations.InvariantAtPowerOn : Prop :=
  ∀ (page : Nat) (es : List Event), ({ State.reset with hhPage := page, agenda := es } : State).Inv

/-- O32. From every state with the invariant (MODE RAW implies CNT 0 and MODE CAT implies LIVE 1; the lanes have a value
exactly while LIVE; the counted bytes of BUF have values and no other cell has; ERRCODE is 0 exactly while ERR is 0; a
pending command is one the admission checks let through, and while nothing is pending PEND has no value), a step that
gives a next state gives one with the invariant. The lane, buffer and pending clauses are how the model reads R38, R24,
R32 and R203 (log entries 6, 7, 8). -/
def Obligations.StepKeepsInvariant : Prop :=
  ∀ s t : State, s.Inv → step s = .next t → t.Inv

/-- O33. From every state with the invariant every step answers a next state: no completion meets absent lanes, an absent
buffered byte or an absent command, so the admission checks guarantee that nothing reads a value before RESET or
CAT_START has written it. That such a read would stop the model is its choice (log entries 6, 7, 8). -/
def Obligations.InvariantStepNeverStops : Prop :=
  ∀ s : State, s.Inv → ∃ t, step s = .next t

/-- O34. For every HH_BASE and every list of events (host accesses of any address, width and value, completion turns,
resets) every number of steps from power-on reset runs without a stop. -/
def Obligations.NoHostSequenceStopsTheBlock : Prop :=
  ∀ (page n : Nat) (es : List Event), SafeRun n { State.reset with hhPage := page, agenda := es }

/-- O35. From every state with the invariant and BUSY = 1 BUSY is 0 after a number of steps that is at most one more than
the events still to come; and where no power-on reset is among these events, a number of steps at most that of the
events leads to a state in which the same command is still pending on the same lanes, BUF, CNT, DIN, LIVE and MODE, and
the next step is exec of that command and clears BUSY. That a finite agenda is followed by the completion is how the
model states weak fairness (log entry 2). -/
def Obligations.PendingCommandCompletes : Prop :=
  ∀ s : State, s.Inv → s.busy = true →
    (∃ n t, n ≤ s.agenda.length + 1 ∧ runSteps n s = .next t ∧ t.busy = false) ∧
    (.powerOn ∉ s.agenda →
      ∃ n u t c i, n ≤ s.agenda.length ∧ s.pend = some c ∧ decode (cmdWrite c) = .command i ∧ runSteps n s = .next u ∧
        u.busy = true ∧ u.pend = some c ∧ u.hash = s.hash ∧ u.buf = s.buf ∧ u.cnt = s.cnt ∧ u.din = s.din ∧
        u.live = s.live ∧ u.mode = s.mode ∧ step u = exec i (u.setAgenda u.agenda.tail) ∧ step u = .next t ∧
        t.busy = false)

/-- O36. With any command that writes OUT pending, and o the result words of its completion: a read of OUTj, the completion,
a read of OUTk return the old word j and then the new word k, for every j and k, so reads in that window may mix old and
new; the completion and then a read of OUTk return the new one. Both orders are agendas of the model (log entry 2). -/
def Obligations.ResultHazardOldOrNew : Prop :=
  ∀ (s : State) (i : Instr) (o : Lanes) (j k : Fin 4) (rest : List Event),
    s.busy = true → s.pend = some (encode i) → ResultOf i s o →
    (s.agenda = rd s.hhBase (0x20 + 8 * j.val) :: .complete :: rd s.hhBase (0x20 + 8 * k.val) :: rest →
      ∃ t, runSteps 3 s = .next t ∧ t.reads = o.get k :: s.out.get j :: s.reads) ∧
    (s.agenda = .complete :: rd s.hhBase (0x20 + 8 * k.val) :: rest →
      ∃ t, runSteps 2 s = .next t ∧ t.reads = o.get k :: s.reads)

/-- O37. For every list of 32 bytes, byte k of its four lanes, as DIN and the round function read them, is its byte k, and
conversely; byte k of a 4-lane value is bits 8*(k%8)+7 : 8*(k%8) of lane k/8, by division; and byte j of a bus transfer
is bits 8j+7 : 8j of its word. -/
def Obligations.BytesOfABlockAreItsLanes : Prop :=
  (∀ b : List Byte, b.length = 32 → laneBytes (lanesOf b) 32 = b) ∧
  (∀ v : Lanes, lanesOf (laneBytes v 32) = v) ∧
  (∀ (v : Lanes) (k : Fin 32),
    (laneByte v k.val).toNat = (v.get ⟨k.val / 8, by omega⟩).toNat / 2 ^ (8 * (k.val % 8)) % 256) ∧
  ∀ (w : Word) (j : Nat), j < 8 → (byteOf w j).toNat = w.toNat / 2 ^ (8 * j) % 256

/-- O38. With S the bytes of (hi : lo), byte j of addLo is S[ZIP[j]] and byte j of addHi is S[ZIP[8+j]], for the table
3,12,2,5,14,1,15,0,11,4,10,13,9,6,8,7. The table is the spec's from general knowledge (R103, log entry 9). -/
def Obligations.ZipperMergeReordersBytes : Prop :=
  ∀ hi lo : Word, ∀ j < 8, ∀ p q : Nat,
    [3, 12, 2, 5, 14, 1, 15, 0, 11, 4, 10, 13, 9, 6, 8, 7][j]? = some p →
    [3, 12, 2, 5, 14, 1, 15, 0, 11, 4, 10, 13, 9, 6, 8, 7][8 + j]? = some q →
      byteOf (zipperMerge hi lo).1 j = (if p < 8 then byteOf lo p else byteOf hi (p - 8)) ∧
      byteOf (zipperMerge hi lo).2 j = (if q < 8 then byteOf lo q else byteOf hi (q - 8))

/-- O39. For all hi and lo, addLo and addHi are the words of the scalar formula of R106. The spec gives the formula from
general knowledge (log entry 9) and its equality with R103 as its own inference. -/
def Obligations.ZipperMergeEqualsScalarForm : Prop :=
  ∀ v1 v0 : Word,
    zipperMerge v1 v0 =
      ((((v0 &&& 0xFF000000) ||| (v1 &&& 0xFF00000000)) >>> 24)
        ||| (((v0 &&& 0xFF0000000000) ||| (v1 &&& 0xFF000000000000)) >>> 16)
        ||| (v0 &&& 0xFF0000) ||| ((v0 &&& 0xFF00) <<< 32)
        ||| ((v1 &&& 0xFF00000000000000) >>> 8) ||| (v0 <<< 56),
       (((v1 &&& 0xFF000000) ||| (v0 &&& 0xFF00000000)) >>> 24)
        ||| (v1 &&& 0xFF0000) ||| ((v1 &&& 0xFF0000000000) >>> 16)
        ||| ((v1 &&& 0xFF00) <<< 24) ||| ((v0 &&& 0xFF000000000000) >>> 8)
        ||| ((v1 &&& 0xFF) <<< 48) ||| (v0 &&& 0xFF00000000000000))

/-- O40. For every lane position, in numbers: V1 becomes (V1 + MUL0 + lane) mod 2^64, MUL0 is xored with the exact product
of the low half of the new V1 and the high half of the old V0, V0 becomes (V0 + MUL1) mod 2^64, MUL1 is xored with the
exact product of the low half of the new V0 and the high half of the new V1; no product exceeds 0xFFFFFFFE00000001. The
exactness is the spec's own inference (R105). -/
def Obligations.RoundMixesLanesExactly : Prop :=
  ∀ (h : HashState) (lanes : Lanes) (i : Fin 4),
    let m := mixLanes h lanes
    (m.v1.get i).toNat = ((h.v1.get i).toNat + (h.mul0.get i).toNat + (lanes.get i).toNat) % 2 ^ 64 ∧
    (m.mul0.get i).toNat =
      (h.mul0.get i).toNat ^^^ ((m.v1.get i).toNat % 2 ^ 32 * ((h.v0.get i).toNat / 2 ^ 32)) ∧
    (m.v0.get i).toNat = ((h.v0.get i).toNat + (h.mul1.get i).toNat) % 2 ^ 64 ∧
    (m.mul1.get i).toNat =
      (h.mul1.get i).toNat ^^^ ((m.v0.get i).toNat % 2 ^ 32 * ((m.v1.get i).toNat / 2 ^ 32)) ∧
    (m.v1.get i).toNat % 2 ^ 32 * ((h.v0.get i).toNat / 2 ^ 32) ≤ 0xFFFFFFFE00000001 ∧
    (m.v0.get i).toNat % 2 ^ 32 * ((m.v1.get i).toNat / 2 ^ 32) ≤ 0xFFFFFFFE00000001

/-- O41. After the lanes are mixed, each pair of V0 lanes takes the zipper merge of the same pair of V1 lanes (high lane
first), and then each pair of V1 lanes the zipper merge of the new V0 pair; MUL0 and MUL1 are those of step 1. Pairing,
order and addition are the spec's from general knowledge (R104, log entry 9). -/
def Obligations.RoundMergesHalves : Prop :=
  ∀ (h : HashState) (lanes : Lanes),
    let m := mixLanes h lanes
    let u := update h lanes
    u.v0.l0 = m.v0.l0 + (zipperMerge m.v1.l1 m.v1.l0).1 ∧ u.v0.l1 = m.v0.l1 + (zipperMerge m.v1.l1 m.v1.l0).2 ∧
    u.v0.l2 = m.v0.l2 + (zipperMerge m.v1.l3 m.v1.l2).1 ∧ u.v0.l3 = m.v0.l3 + (zipperMerge m.v1.l3 m.v1.l2).2 ∧
    u.v1.l0 = m.v1.l0 + (zipperMerge u.v0.l1 u.v0.l0).1 ∧ u.v1.l1 = m.v1.l1 + (zipperMerge u.v0.l1 u.v0.l0).2 ∧
    u.v1.l2 = m.v1.l2 + (zipperMerge u.v0.l3 u.v0.l2).1 ∧ u.v1.l3 = m.v1.l3 + (zipperMerge u.v0.l3 u.v0.l2).2 ∧
    u.mul0 = m.mul0 ∧ u.mul1 = m.mul1

/-- O42. Lane i of v, with its two 32-bit halves exchanged, is lane (i+2) mod 4 of Permute(v); so Permute applied twice
gives v back. PermuteAndUpdate(H) is Update(H, Permute(V0)). The reading of the half-swap is the spec's from general
knowledge (R120, log entry 9). -/
def Obligations.PermuteMovesHalfSwappedLanes : Prop :=
  (∀ v : Lanes,
    (∀ i : Fin 4, (permute v).get (i + 2) = low32 (v.get i) ++ high32 (v.get i)) ∧ permute (permute v) = v) ∧
  ∀ h : HashState, permuteAndUpdate h = update h (permute h.v0)

/-- O43. For every count from 1 to 31 and every x: bit j of the low half of the result is bit (j - c) mod 32 of the low half
of x, and the same holds of the high halves. [R122] -/
def Obligations.Rotate32ByRotatesEachHalf : Prop :=
  ∀ (c : Nat) (x : Word), 1 ≤ c → c ≤ 31 → ∀ j < 32,
    (rotate32By c x).getLsbD j = x.getLsbD ((j + 32 - c) % 32) ∧
    (rotate32By c x).getLsbD (32 + j) = x.getLsbD (32 + (j + 32 - c) % 32)

/-- O44. For 1 to 31 bytes: each V0 lane gains n * 2^32 + n modulo 2^64, each V1 lane becomes Rotate32By(n) of itself, and
MUL0 and MUL1 stay; the added value is (n << 32) | n as well. That the two forms are equal is the spec's own inference,
and that n is the remainder's length is from general knowledge (R123, log entry 9). -/
def Obligations.LengthPerturbationBindsTheCount : Prop :=
  ∀ (h : HashState) (n : Nat), 1 ≤ n → n ≤ 31 →
    (∀ i : Fin 4, ((perturb h n).v0.get i).toNat = ((h.v0.get i).toNat + (n * 2 ^ 32 + n)) % 2 ^ 64 ∧
      (perturb h n).v1.get i = rotate32By n (h.v1.get i)) ∧
    (perturb h n).mul0 = h.mul0 ∧ (perturb h n).mul1 = h.mul1 ∧
    lengthWord n = (BitVec.ofNat 64 n <<< 32) ||| BitVec.ofNat 64 n

/-- O45. The packet has 32 bytes: with base the last multiple of 4 not above n, offsets below base hold the input bytes; for
n at least 16 offsets 28..31 hold the last four input bytes; for n below 16 with n mod 4 = m not 0, offsets 16, 17, 18
hold bytes base, base + m/2, base + m - 1; every other offset holds 0. That the short tail counts from the boundary is
the spec's from general knowledge (R124, log entry 9). -/
def Obligations.PackRemainderPlacesEachByte : Prop :=
  ∀ b : List Byte, 1 ≤ b.length → b.length ≤ 31 →
    let n := b.length
    let m := n % 4
    let base := n - m
    (packRemainder b).length = 32 ∧
    ∀ k < 32, (packRemainder b).getD k 0 =
      if k < base then b.getD k 0
      else if 16 ≤ n then (if 28 ≤ k then b.getD (n - 4 + (k - 28)) 0 else 0)
      else if m = 0 then 0
      else if k = 16 then b.getD base 0
      else if k = 17 then b.getD (base + m / 2) 0
      else if k = 18 then b.getD (base + m - 1) 0
      else 0

/-- O46. With a3 the low 62 bits of a3u: the 256-bit polynomial (a3 : a2 : a1 : a0) is the carry-less product of x^128 + x^2
+ x and (a3 : a2), plus (m1 : m0), which has degree below 128; and bits 63:62 of a3u never influence the result. The
reading is the spec's own inference (R148); the formula is from general knowledge (R142, log entry 9). -/
def Obligations.ModularReductionIsThePolynomialRemainder : Prop :=
  ∀ a3u a2 a1 a0 : Word,
    let a3 : Word := (a3u.extractLsb' 0 62).setWidth 64
    let m := modularReduction a3u a2 a1 a0
    (a3 ++ a2 ++ a1 ++ a0 : BitVec 256) =
      clmul (1#256 <<< 128 ||| 1#256 <<< 2 ||| 1#256 <<< 1) ((a3 ++ a2 : BitVec 128).setWidth 256) ^^^
        (m.1 ++ m.2 : BitVec 128).setWidth 256 ∧
    modularReduction a3 a2 a1 a0 = m

/-- O47. Two states that differ only in DIN bytes at LEN and beyond go through UPDATE_REMAINDER LEN, and through CAT_APPEND
LEN, to next states that differ only in DIN. -/
def Obligations.UnusedDinBytesAreIgnored : Prop :=
  ∀ (s t : State) (d : Lanes) (len : Nat), (∀ k < len, laneByte d k = laneByte s.din k) →
    (exec (.updateRemainder len) s = .next t → exec (.updateRemainder len) { s with din := d } = .next { t with din := d }) ∧
    (exec (.catAppend len) s = .next t → exec (.catAppend len) { s with din := d } = .next { t with din := d })

/-- O48. From every accumulator with a count below 32 and every counted byte present, CatAppend of a byte string of any
length gives an accumulator of the same kind whose count is (c + n) mod 32; so the count never stays at 32. -/
def Obligations.CatAppendMovesTheCount : Prop :=
  ∀ (a : Accumulator) (b : List Byte), a.ok →
    ∃ a', catAppend a b = some a' ∧ a'.ok ∧ a'.c = (a.c + b.length) % 32

/-- O49. From every accumulator with a count below 32 and every counted byte present: CatAppend of x ++ y leaves the same
lanes, the same count and the same counted BUF bytes as CatAppend of x followed by CatAppend of y, and, no other cell of
BUF keeping a value (log entry 7), the same accumulator. The spec gives this as its own inference (R173). -/
def Obligations.CatAppendOfAConcatenation : Prop :=
  ∀ (a : Accumulator) (x y : List Byte), a.ok →
    ∃ q r, catAppend a x = some q ∧ catAppend q y = some r ∧ catAppend a (x ++ y) = some r

/-- O50. From CAT_START with any key and any old BUF contents, appending byte strings of any lengths gives the lanes after
one Update per whole 32-byte block of their concatenation, a count of its length mod 32, the last bytes in BUF, and a
finished copy equal to the one-shot driver's ProcessAll. The spec gives this as its own inference (R178). -/
def Obligations.ChunkingInvariance : Prop :=
  ∀ (key : Lanes) (buf : Vector (Option Byte) 32) (chunks : List (List Byte)),
    let data := chunks.flatten
    ∃ a, catAppendAll ⟨initState key, buf, 0⟩ chunks = some a ∧
      a.h = absorbBlocks (data.length / 32) (initState key) data ∧ a.c = data.length % 32 ∧
      bufBytes a.buf a.c = some (data.drop (32 * (data.length / 32))) ∧
      finishCopy a.h a.buf a.c = some (processAll data key)

/-- O51. From every state with BUSY = 0 and every HH_BASE: the host sequence of R162 (load the key, RESET, each block loaded
and absorbed, the tail, FINALIZE, read OUT, with any number of STATUS polls at each wait) runs to its end without an
error, OUT holds Hash64, 128 or 256 of the data under the key, and the last reads return its words. The spec gives the
equality as its own inference (R162). -/
def Obligations.OneShotSequenceComputesTheHash : Prop :=
  ∀ (s : State) (polls : Nat → Nat) (w : Width) (data : List Byte) (key : Lanes), s.busy = false →
    s.agenda = oneShot s.hhBase polls w data key →
      ∃ t, runSteps s.agenda.length s = .next t ∧ t.agenda = [] ∧ t.busy = false ∧ t.err = false ∧
        t.out = hashOf w data key ∧
        t.reads.take (resultWords w t.out).length = (resultWords w (hashOf w data key)).reverse

/-- O52. From every state with BUSY = 0 and every HH_BASE: the key loaded, CAT_START, one CAT_APPEND per chunk of at most 32
bytes (empty ones too), CAT_FINISH and the reads of OUT, with any number of STATUS polls at each wait, run to their end
without an error, OUT holds the one-shot hash of the concatenated chunks, and the accumulator stays live in CAT mode
with CNT the length mod 32. The spec gives the equality as its own inference (R178). -/
def Obligations.StreamedSequenceComputesTheHash : Prop :=
  ∀ (s : State) (polls : Nat → Nat) (w : Width) (chunks : List (List Byte)) (key : Lanes), s.busy = false →
    (∀ b ∈ chunks, b.length ≤ 32) → s.agenda = streamed s.hhBase polls w chunks key →
      ∃ t, runSteps s.agenda.length s = .next t ∧ t.agenda = [] ∧ t.busy = false ∧ t.err = false ∧
        t.live = true ∧ t.mode = .cat ∧ t.cnt.toNat = chunks.flatten.length % 32 ∧
        t.out = hashOf w chunks.flatten key ∧
        t.reads.take (resultWords w t.out).length = (resultWords w (hashOf w chunks.flatten key)).reverse
end

