-- ==== Sys2Proof/Laws/Decode.lean ====
section
/-! SUPPORT. The fields of an encoded command, and bytes and words of each other (R10, R52, R71). -/

namespace Sys2Proof.Laws

/-- Every bit of an encoded command: OPC, then LEN, then zeros (R71). -/
theorem encode_getLsbD (i : Instr) (k : Nat) :
    (encode i).getLsbD k =
      if k < 8 then (opcodeOf i).getLsbD k else (BitVec.ofNat 6 (lenOf i)).getLsbD (k - 8) := by
  have h : (encode i).getLsbD k = (0#18 ++ BitVec.ofNat 6 (lenOf i) ++ opcodeOf i : BitVec (18 + 6 + 8)).getLsbD k := rfl
  rw [h, BitVec.getLsbD_append]
  split
  · rfl
  · rw [BitVec.getLsbD_append]
    split
    · rfl
    · rw [BitVec.getLsbD_of_ge (BitVec.ofNat 6 (lenOf i)) _ (by omega)]
      simp

/-- OPC of an encoded command. -/
theorem opcField_encode (i : Instr) : opcField (cmdWrite (encode i)) = opcodeOf i := by
  apply BitVec.eq_of_getLsbD_eq
  intro k hk
  have h7 : k < 64 := by omega
  simp only [opcField, cmdWrite, BitVec.getLsbD_extractLsb', BitVec.getLsbD_setWidth, encode_getLsbD]
  simp [hk, h7]

/-- LEN of an encoded command is the operand's low six bits. -/
theorem lenField_encode (i : Instr) : lenField (cmdWrite (encode i)) = BitVec.ofNat 6 (lenOf i) := by
  apply BitVec.eq_of_getLsbD_eq
  intro k hk
  have h64 : 8 + k < 64 := by omega
  simp only [lenField, cmdWrite, BitVec.getLsbD_extractLsb', BitVec.getLsbD_setWidth, encode_getLsbD]
  simp [hk, h64]

/-- RSVD of an encoded command is 0. -/
theorem rsvdField_encode (i : Instr) : rsvdField (cmdWrite (encode i)) = 0 := by
  apply BitVec.eq_of_getLsbD_eq
  intro k hk
  have h8 : ¬ 14 + k < 8 := by omega
  simp only [rsvdField, cmdWrite, BitVec.getLsbD_extractLsb', BitVec.getLsbD_setWidth, encode_getLsbD, h8, if_false]
  rw [BitVec.getLsbD_of_ge (BitVec.ofNat 6 (lenOf i)) _ (by omega)]
  simp

/-- Bits 63:32 of an encoded command are 0. -/
theorem highField_encode (i : Instr) : highField (cmdWrite (encode i)) = 0 := by
  apply BitVec.eq_of_getLsbD_eq
  intro k hk
  simp [highField, cmdWrite]

/-- A well-formed operand is in the six bits of LEN. -/
theorem lenOf_lt_of_wf (i : Instr) (h : i.wf = true) : lenOf i < 64 := by
  cases i <;> simp_all [Instr.wf, Instr.lenFits, lenOf]

@[simp] theorem wordBytes_length (w : Word) : (wordBytes w).length = 8 := by simp [wordBytes]

/-- Byte j of a word read from bytes is the j-th of them (R10, R52). -/
theorem byteOf_leWord (bs : List Byte) (j : Nat) (hj : j < 8) : byteOf (leWord bs) j = bs.getD j 0 := by
  induction bs generalizing j with
  | nil => simp [leWord, byteOf]
  | cons b bs ih =>
    apply BitVec.eq_of_getLsbD_eq
    intro k hk
    cases j with
    | zero =>
      have h8 : k < 64 := by omega
      simp [leWord, byteOf, hk, h8]
    | succ m =>
      have hm := congrArg (fun x : Byte => x.getLsbD k) (ih m (by omega))
      simp only [byteOf, BitVec.getLsbD_extractLsb', hk, decide_true, Bool.true_and] at hm
      have e1 : 8 * (m + 1) + k < 64 := by omega
      have e2 : ¬ 8 * (m + 1) + k < 8 := by omega
      have e3 : 8 * (m + 1) + k - 8 = 8 * m + k := by omega
      have e4 : b.getLsbD (8 * (m + 1) + k) = false := BitVec.getLsbD_of_ge _ _ (by omega)
      have e5 : 8 * m + k < 64 := by omega
      simp [leWord, byteOf, hk, e1, e2, e3, e4]
      simpa [hk, e5] using hm

/-- The bytes of a word, read again, are the word (R52). -/
theorem leWord_wordBytes (w : Word) : leWord (wordBytes w) = w := by
  apply BitVec.eq_of_getLsbD_eq
  intro k hk
  have hj : k / 8 < 8 := by omega
  have h := byteOf_leWord (wordBytes w) (k / 8) hj
  have hb : (wordBytes w).getD (k / 8) 0 = byteOf w (k / 8) := by simp [wordBytes, hj]
  rw [hb] at h
  have hm := congrArg (fun x : Byte => x.getLsbD (k % 8)) h
  have e : 8 * (k / 8) + k % 8 = k := by omega
  have e8 : k % 8 < 8 := by omega
  simpa [byteOf, e, e8] using hm

end Sys2Proof.Laws
end

