-- ==== Sys2Proof/Laws/State.lean ====
section
/-! SUPPORT. One lemma per field and update of State, true by rfl, so that no proof unfolds a record update; and the same for
recording an error, which changes ERR and ERRCODE only (R200, R202). -/

namespace Sys2Proof.Machine.State

variable (s : State)

@[simp] theorem setHash_hash (h : HashState) : (s.setHash h).hash = some h := rfl
@[simp] theorem setHash_buf (h : HashState) : (s.setHash h).buf = s.buf := rfl
@[simp] theorem setHash_cnt (h : HashState) : (s.setHash h).cnt = s.cnt := rfl
@[simp] theorem setHash_live (h : HashState) : (s.setHash h).live = s.live := rfl
@[simp] theorem setHash_mode (h : HashState) : (s.setHash h).mode = s.mode := rfl
@[simp] theorem setHash_busy (h : HashState) : (s.setHash h).busy = s.busy := rfl
@[simp] theorem setHash_pend (h : HashState) : (s.setHash h).pend = s.pend := rfl
@[simp] theorem setHash_err (h : HashState) : (s.setHash h).err = s.err := rfl
@[simp] theorem setHash_errcode (h : HashState) : (s.setHash h).errcode = s.errcode := rfl
@[simp] theorem setHash_din (h : HashState) : (s.setHash h).din = s.din := rfl
@[simp] theorem setHash_out (h : HashState) : (s.setHash h).out = s.out := rfl
@[simp] theorem setHash_hhPage (h : HashState) : (s.setHash h).hhPage = s.hhPage := rfl
@[simp] theorem setHash_agenda (h : HashState) : (s.setHash h).agenda = s.agenda := rfl
@[simp] theorem setHash_reads (h : HashState) : (s.setHash h).reads = s.reads := rfl

@[simp] theorem setBuffer_hash (b : Vector (Option Byte) 32) (c : BitVec 5) : (s.setBuffer b c).hash = s.hash := rfl
@[simp] theorem setBuffer_buf (b : Vector (Option Byte) 32) (c : BitVec 5) : (s.setBuffer b c).buf = b := rfl
@[simp] theorem setBuffer_cnt (b : Vector (Option Byte) 32) (c : BitVec 5) : (s.setBuffer b c).cnt = c := rfl
@[simp] theorem setBuffer_live (b : Vector (Option Byte) 32) (c : BitVec 5) : (s.setBuffer b c).live = s.live := rfl
@[simp] theorem setBuffer_mode (b : Vector (Option Byte) 32) (c : BitVec 5) : (s.setBuffer b c).mode = s.mode := rfl
@[simp] theorem setBuffer_busy (b : Vector (Option Byte) 32) (c : BitVec 5) : (s.setBuffer b c).busy = s.busy := rfl
@[simp] theorem setBuffer_pend (b : Vector (Option Byte) 32) (c : BitVec 5) : (s.setBuffer b c).pend = s.pend := rfl
@[simp] theorem setBuffer_err (b : Vector (Option Byte) 32) (c : BitVec 5) : (s.setBuffer b c).err = s.err := rfl
@[simp] theorem setBuffer_errcode (b : Vector (Option Byte) 32) (c : BitVec 5) : (s.setBuffer b c).errcode = s.errcode := rfl
@[simp] theorem setBuffer_din (b : Vector (Option Byte) 32) (c : BitVec 5) : (s.setBuffer b c).din = s.din := rfl
@[simp] theorem setBuffer_out (b : Vector (Option Byte) 32) (c : BitVec 5) : (s.setBuffer b c).out = s.out := rfl
@[simp] theorem setBuffer_hhPage (b : Vector (Option Byte) 32) (c : BitVec 5) : (s.setBuffer b c).hhPage = s.hhPage := rfl
@[simp] theorem setBuffer_agenda (b : Vector (Option Byte) 32) (c : BitVec 5) : (s.setBuffer b c).agenda = s.agenda := rfl
@[simp] theorem setBuffer_reads (b : Vector (Option Byte) 32) (c : BitVec 5) : (s.setBuffer b c).reads = s.reads := rfl

@[simp] theorem startWith_hash (h : HashState) (m : Mode) : (s.startWith h m).hash = some h := rfl
@[simp] theorem startWith_buf (h : HashState) (m : Mode) : (s.startWith h m).buf = Vector.replicate 32 none := rfl
@[simp] theorem startWith_cnt (h : HashState) (m : Mode) : (s.startWith h m).cnt = 0 := rfl
@[simp] theorem startWith_live (h : HashState) (m : Mode) : (s.startWith h m).live = true := rfl
@[simp] theorem startWith_mode (h : HashState) (m : Mode) : (s.startWith h m).mode = m := rfl
@[simp] theorem startWith_busy (h : HashState) (m : Mode) : (s.startWith h m).busy = s.busy := rfl
@[simp] theorem startWith_pend (h : HashState) (m : Mode) : (s.startWith h m).pend = s.pend := rfl
@[simp] theorem startWith_err (h : HashState) (m : Mode) : (s.startWith h m).err = s.err := rfl
@[simp] theorem startWith_errcode (h : HashState) (m : Mode) : (s.startWith h m).errcode = s.errcode := rfl
@[simp] theorem startWith_din (h : HashState) (m : Mode) : (s.startWith h m).din = s.din := rfl
@[simp] theorem startWith_out (h : HashState) (m : Mode) : (s.startWith h m).out = s.out := rfl
@[simp] theorem startWith_hhPage (h : HashState) (m : Mode) : (s.startWith h m).hhPage = s.hhPage := rfl
@[simp] theorem startWith_agenda (h : HashState) (m : Mode) : (s.startWith h m).agenda = s.agenda := rfl
@[simp] theorem startWith_reads (h : HashState) (m : Mode) : (s.startWith h m).reads = s.reads := rfl

@[simp] theorem consume_hash : s.consume.hash = none := rfl
@[simp] theorem consume_buf : s.consume.buf = s.buf := rfl
@[simp] theorem consume_cnt : s.consume.cnt = s.cnt := rfl
@[simp] theorem consume_live : s.consume.live = false := rfl
@[simp] theorem consume_mode : s.consume.mode = s.mode := rfl
@[simp] theorem consume_busy : s.consume.busy = s.busy := rfl
@[simp] theorem consume_pend : s.consume.pend = s.pend := rfl
@[simp] theorem consume_err : s.consume.err = s.err := rfl
@[simp] theorem consume_errcode : s.consume.errcode = s.errcode := rfl
@[simp] theorem consume_din : s.consume.din = s.din := rfl
@[simp] theorem consume_out : s.consume.out = s.out := rfl
@[simp] theorem consume_hhPage : s.consume.hhPage = s.hhPage := rfl
@[simp] theorem consume_agenda : s.consume.agenda = s.agenda := rfl
@[simp] theorem consume_reads : s.consume.reads = s.reads := rfl

@[simp] theorem setOut_hash (o : Lanes) : (s.setOut o).hash = s.hash := rfl
@[simp] theorem setOut_buf (o : Lanes) : (s.setOut o).buf = s.buf := rfl
@[simp] theorem setOut_cnt (o : Lanes) : (s.setOut o).cnt = s.cnt := rfl
@[simp] theorem setOut_live (o : Lanes) : (s.setOut o).live = s.live := rfl
@[simp] theorem setOut_mode (o : Lanes) : (s.setOut o).mode = s.mode := rfl
@[simp] theorem setOut_busy (o : Lanes) : (s.setOut o).busy = s.busy := rfl
@[simp] theorem setOut_pend (o : Lanes) : (s.setOut o).pend = s.pend := rfl
@[simp] theorem setOut_err (o : Lanes) : (s.setOut o).err = s.err := rfl
@[simp] theorem setOut_errcode (o : Lanes) : (s.setOut o).errcode = s.errcode := rfl
@[simp] theorem setOut_din (o : Lanes) : (s.setOut o).din = s.din := rfl
@[simp] theorem setOut_out (o : Lanes) : (s.setOut o).out = o := rfl
@[simp] theorem setOut_hhPage (o : Lanes) : (s.setOut o).hhPage = s.hhPage := rfl
@[simp] theorem setOut_agenda (o : Lanes) : (s.setOut o).agenda = s.agenda := rfl
@[simp] theorem setOut_reads (o : Lanes) : (s.setOut o).reads = s.reads := rfl

@[simp] theorem setDin_hash (i : Fin 4) (v : Word) : (s.setDin i v).hash = s.hash := rfl
@[simp] theorem setDin_buf (i : Fin 4) (v : Word) : (s.setDin i v).buf = s.buf := rfl
@[simp] theorem setDin_cnt (i : Fin 4) (v : Word) : (s.setDin i v).cnt = s.cnt := rfl
@[simp] theorem setDin_live (i : Fin 4) (v : Word) : (s.setDin i v).live = s.live := rfl
@[simp] theorem setDin_mode (i : Fin 4) (v : Word) : (s.setDin i v).mode = s.mode := rfl
@[simp] theorem setDin_busy (i : Fin 4) (v : Word) : (s.setDin i v).busy = s.busy := rfl
@[simp] theorem setDin_pend (i : Fin 4) (v : Word) : (s.setDin i v).pend = s.pend := rfl
@[simp] theorem setDin_err (i : Fin 4) (v : Word) : (s.setDin i v).err = s.err := rfl
@[simp] theorem setDin_errcode (i : Fin 4) (v : Word) : (s.setDin i v).errcode = s.errcode := rfl
@[simp] theorem setDin_din (i : Fin 4) (v : Word) : (s.setDin i v).din = s.din.set i v := rfl
@[simp] theorem setDin_out (i : Fin 4) (v : Word) : (s.setDin i v).out = s.out := rfl
@[simp] theorem setDin_hhPage (i : Fin 4) (v : Word) : (s.setDin i v).hhPage = s.hhPage := rfl
@[simp] theorem setDin_agenda (i : Fin 4) (v : Word) : (s.setDin i v).agenda = s.agenda := rfl
@[simp] theorem setDin_reads (i : Fin 4) (v : Word) : (s.setDin i v).reads = s.reads := rfl

@[simp] theorem accept_hash (c : CmdWord) : (s.accept c).hash = s.hash := rfl
@[simp] theorem accept_buf (c : CmdWord) : (s.accept c).buf = s.buf := rfl
@[simp] theorem accept_cnt (c : CmdWord) : (s.accept c).cnt = s.cnt := rfl
@[simp] theorem accept_live (c : CmdWord) : (s.accept c).live = s.live := rfl
@[simp] theorem accept_mode (c : CmdWord) : (s.accept c).mode = s.mode := rfl
@[simp] theorem accept_busy (c : CmdWord) : (s.accept c).busy = true := rfl
@[simp] theorem accept_pend (c : CmdWord) : (s.accept c).pend = some c := rfl
@[simp] theorem accept_err (c : CmdWord) : (s.accept c).err = s.err := rfl
@[simp] theorem accept_errcode (c : CmdWord) : (s.accept c).errcode = s.errcode := rfl
@[simp] theorem accept_din (c : CmdWord) : (s.accept c).din = s.din := rfl
@[simp] theorem accept_out (c : CmdWord) : (s.accept c).out = s.out := rfl
@[simp] theorem accept_hhPage (c : CmdWord) : (s.accept c).hhPage = s.hhPage := rfl
@[simp] theorem accept_agenda (c : CmdWord) : (s.accept c).agenda = s.agenda := rfl
@[simp] theorem accept_reads (c : CmdWord) : (s.accept c).reads = s.reads := rfl

@[simp] theorem finish_hash : s.finish.hash = s.hash := rfl
@[simp] theorem finish_buf : s.finish.buf = s.buf := rfl
@[simp] theorem finish_cnt : s.finish.cnt = s.cnt := rfl
@[simp] theorem finish_live : s.finish.live = s.live := rfl
@[simp] theorem finish_mode : s.finish.mode = s.mode := rfl
@[simp] theorem finish_busy : s.finish.busy = false := rfl
@[simp] theorem finish_pend : s.finish.pend = none := rfl
@[simp] theorem finish_err : s.finish.err = s.err := rfl
@[simp] theorem finish_errcode : s.finish.errcode = s.errcode := rfl
@[simp] theorem finish_din : s.finish.din = s.din := rfl
@[simp] theorem finish_out : s.finish.out = s.out := rfl
@[simp] theorem finish_hhPage : s.finish.hhPage = s.hhPage := rfl
@[simp] theorem finish_agenda : s.finish.agenda = s.agenda := rfl
@[simp] theorem finish_reads : s.finish.reads = s.reads := rfl

@[simp] theorem logRead_hash (v : Word) : (s.logRead v).hash = s.hash := rfl
@[simp] theorem logRead_buf (v : Word) : (s.logRead v).buf = s.buf := rfl
@[simp] theorem logRead_cnt (v : Word) : (s.logRead v).cnt = s.cnt := rfl
@[simp] theorem logRead_live (v : Word) : (s.logRead v).live = s.live := rfl
@[simp] theorem logRead_mode (v : Word) : (s.logRead v).mode = s.mode := rfl
@[simp] theorem logRead_busy (v : Word) : (s.logRead v).busy = s.busy := rfl
@[simp] theorem logRead_pend (v : Word) : (s.logRead v).pend = s.pend := rfl
@[simp] theorem logRead_err (v : Word) : (s.logRead v).err = s.err := rfl
@[simp] theorem logRead_errcode (v : Word) : (s.logRead v).errcode = s.errcode := rfl
@[simp] theorem logRead_din (v : Word) : (s.logRead v).din = s.din := rfl
@[simp] theorem logRead_out (v : Word) : (s.logRead v).out = s.out := rfl
@[simp] theorem logRead_hhPage (v : Word) : (s.logRead v).hhPage = s.hhPage := rfl
@[simp] theorem logRead_agenda (v : Word) : (s.logRead v).agenda = s.agenda := rfl
@[simp] theorem logRead_reads (v : Word) : (s.logRead v).reads = v :: s.reads := rfl

@[simp] theorem setAgenda_hash (es : List Event) : (s.setAgenda es).hash = s.hash := rfl
@[simp] theorem setAgenda_buf (es : List Event) : (s.setAgenda es).buf = s.buf := rfl
@[simp] theorem setAgenda_cnt (es : List Event) : (s.setAgenda es).cnt = s.cnt := rfl
@[simp] theorem setAgenda_live (es : List Event) : (s.setAgenda es).live = s.live := rfl
@[simp] theorem setAgenda_mode (es : List Event) : (s.setAgenda es).mode = s.mode := rfl
@[simp] theorem setAgenda_busy (es : List Event) : (s.setAgenda es).busy = s.busy := rfl
@[simp] theorem setAgenda_pend (es : List Event) : (s.setAgenda es).pend = s.pend := rfl
@[simp] theorem setAgenda_err (es : List Event) : (s.setAgenda es).err = s.err := rfl
@[simp] theorem setAgenda_errcode (es : List Event) : (s.setAgenda es).errcode = s.errcode := rfl
@[simp] theorem setAgenda_din (es : List Event) : (s.setAgenda es).din = s.din := rfl
@[simp] theorem setAgenda_out (es : List Event) : (s.setAgenda es).out = s.out := rfl
@[simp] theorem setAgenda_hhPage (es : List Event) : (s.setAgenda es).hhPage = s.hhPage := rfl
@[simp] theorem setAgenda_agenda (es : List Event) : (s.setAgenda es).agenda = es := rfl
@[simp] theorem setAgenda_reads (es : List Event) : (s.setAgenda es).reads = s.reads := rfl

@[simp] theorem clearError_hash : s.clearError.hash = s.hash := rfl
@[simp] theorem clearError_buf : s.clearError.buf = s.buf := rfl
@[simp] theorem clearError_cnt : s.clearError.cnt = s.cnt := rfl
@[simp] theorem clearError_live : s.clearError.live = s.live := rfl
@[simp] theorem clearError_mode : s.clearError.mode = s.mode := rfl
@[simp] theorem clearError_busy : s.clearError.busy = s.busy := rfl
@[simp] theorem clearError_pend : s.clearError.pend = s.pend := rfl
@[simp] theorem clearError_err : s.clearError.err = false := rfl
@[simp] theorem clearError_errcode : s.clearError.errcode = .noError := rfl
@[simp] theorem clearError_din : s.clearError.din = s.din := rfl
@[simp] theorem clearError_out : s.clearError.out = s.out := rfl
@[simp] theorem clearError_hhPage : s.clearError.hhPage = s.hhPage := rfl
@[simp] theorem clearError_agenda : s.clearError.agenda = s.agenda := rfl
@[simp] theorem clearError_reads : s.clearError.reads = s.reads := rfl

@[simp] theorem powerOn_hash : s.powerOn.hash = none := rfl
@[simp] theorem powerOn_buf : s.powerOn.buf = Vector.replicate 32 none := rfl
@[simp] theorem powerOn_cnt : s.powerOn.cnt = 0 := rfl
@[simp] theorem powerOn_live : s.powerOn.live = false := rfl
@[simp] theorem powerOn_mode : s.powerOn.mode = .raw := rfl
@[simp] theorem powerOn_busy : s.powerOn.busy = false := rfl
@[simp] theorem powerOn_pend : s.powerOn.pend = none := rfl
@[simp] theorem powerOn_err : s.powerOn.err = false := rfl
@[simp] theorem powerOn_errcode : s.powerOn.errcode = .noError := rfl
@[simp] theorem powerOn_din : s.powerOn.din = ⟨0, 0, 0, 0⟩ := rfl
@[simp] theorem powerOn_out : s.powerOn.out = ⟨0, 0, 0, 0⟩ := rfl
@[simp] theorem powerOn_hhPage : s.powerOn.hhPage = s.hhPage := rfl
@[simp] theorem powerOn_agenda : s.powerOn.agenda = s.agenda := rfl
@[simp] theorem powerOn_reads : s.powerOn.reads = s.reads := rfl

@[simp] theorem record_hash (c : ErrCode) : (s.record c).hash = s.hash := by unfold record; split <;> rfl
@[simp] theorem record_buf (c : ErrCode) : (s.record c).buf = s.buf := by unfold record; split <;> rfl
@[simp] theorem record_cnt (c : ErrCode) : (s.record c).cnt = s.cnt := by unfold record; split <;> rfl
@[simp] theorem record_live (c : ErrCode) : (s.record c).live = s.live := by unfold record; split <;> rfl
@[simp] theorem record_mode (c : ErrCode) : (s.record c).mode = s.mode := by unfold record; split <;> rfl
@[simp] theorem record_busy (c : ErrCode) : (s.record c).busy = s.busy := by unfold record; split <;> rfl
@[simp] theorem record_pend (c : ErrCode) : (s.record c).pend = s.pend := by unfold record; split <;> rfl
@[simp] theorem record_din (c : ErrCode) : (s.record c).din = s.din := by unfold record; split <;> rfl
@[simp] theorem record_out (c : ErrCode) : (s.record c).out = s.out := by unfold record; split <;> rfl
@[simp] theorem record_hhPage (c : ErrCode) : (s.record c).hhPage = s.hhPage := by unfold record; split <;> rfl
@[simp] theorem record_agenda (c : ErrCode) : (s.record c).agenda = s.agenda := by unfold record; split <;> rfl
@[simp] theorem record_reads (c : ErrCode) : (s.record c).reads = s.reads := by unfold record; split <;> rfl
@[simp] theorem record_err (c : ErrCode) : (s.record c).err = true := by unfold record; split <;> simp_all

/-- The first error is kept (R202). -/
theorem record_of_err (c : ErrCode) (h : s.err = true) : s.record c = s := by simp [record, h]

/-- A first error sets ERR and its code (R202). -/
theorem record_of_ok (c : ErrCode) (h : s.err = false) : s.record c = { s with err := true, errcode := c } := by simp [record, h]

end Sys2Proof.Machine.State
end

