-- ==== Sys2Proof/Laws/Ops.lean ====
section
/-! SUPPORT. What each shared operation can do, said once: admission, the phases of a command, the window, the byte operands,
the accumulator. -/

namespace Sys2Proof.Machine

/-! ## Admission -/

/-- Everything admission can do: accept a start, drop, record one of three errors, accept (R203). -/
theorem admission_cases (i : Instr) (s : State) :
    (isStart i = true ∧ admission i s = s.clearError.accept (encode i)) ∨
    (isStart i = false ∧ s.err = true ∧ admission i s = s) ∨
    (isStart i = false ∧ s.err = false ∧ s.live = false ∧ admission i s = s.record .notLive) ∨
    (isStart i = false ∧ s.err = false ∧ s.live = true ∧ modeOf i ≠ s.mode ∧ admission i s = s.record .wrongMode) ∨
    (isStart i = false ∧ s.err = false ∧ s.live = true ∧ modeOf i = s.mode ∧ lenLegal i = false ∧
      admission i s = s.record .badLen) ∨
    (isStart i = false ∧ s.err = false ∧ s.live = true ∧ modeOf i = s.mode ∧ lenLegal i = true ∧
      admission i s = s.accept (encode i)) := by
  unfold admission
  cases h1 : isStart i <;> cases h2 : s.err <;> cases h3 : s.live <;> cases h5 : lenLegal i <;>
    by_cases h4 : modeOf i = s.mode <;> simp [h4]

/-- While the block is idle a command is admitted (R203). -/
theorem onCommand_idle (i : Instr) (k : State → Result) (s : State) (h : s.busy = false) :
    onCommand i k s = .next (admission i s) := by simp [onCommand, h]

/-- While the block is busy a command completes (R204). -/
theorem onCommand_busy (i : Instr) (k : State → Result) (s : State) (h : s.busy = true) : onCommand i k s = k s := by
  simp [onCommand, h]

/-- A completion that reads the lanes goes on only where they have a value. -/
theorem withLanes_next {s t : State} {k : HashState → Result} (h : withLanes s k = .next t) :
    ∃ x, s.hash = some x ∧ k x = .next t := by
  unfold withLanes at h
  split at h
  · cases h
  · exact ⟨_, ‹_›, h⟩

/-! ## The window -/

/-- The offset of an address in the window (R50). -/
theorem windowOffset_base (s : State) (off : Nat) (h : off < 0x100) : windowOffset s (s.hhBase + off) = some off := by
  have : s.hhBase + off < s.hhBase + Config.windowBytes := by simpa [Config.windowBytes] using h
  simp [windowOffset, this]

/-- Only the page decides which addresses are in the window. -/
theorem windowOffset_congr {s t : State} (h : s.hhPage = t.hhPage) (addr : Nat) : windowOffset s addr = windowOffset t addr := by
  unfold windowOffset State.hhBase; rw [h]

/-- An address in the window and its offset agree modulo 8 (R50, R53). -/
theorem windowOffset_some {s : State} {addr off : Nat} (h : windowOffset s addr = some off) :
    addr = s.hhBase + off ∧ off < 0x100 ∧ addr % 8 = off % 8 := by
  unfold windowOffset at h
  split at h
  · rename_i hc
    have hb : s.hhBase = 256 * s.hhPage := rfl
    have hw : Config.windowBytes = 256 := rfl
    simp only [Option.some.injEq] at h
    omega
  · cases h

/-- An address outside the window has no offset (R50). -/
theorem windowOffset_eq_none_iff (s : State) (addr : Nat) :
    windowOffset s addr = none ↔ addr < s.hhBase ∨ s.hhBase + 0x100 ≤ addr := by
  have hw : Config.windowBytes = 256 := rfl
  unfold windowOffset
  split <;> simp <;> omega

/-- Which accesses run into the window from below (R53). -/
theorem runsIntoWindow_iff (s : State) (addr width : Nat) :
    runsIntoWindow s addr width = true ↔ addr < s.hhBase ∧ s.hhBase < addr + width := by
  simp [runsIntoWindow]

/-- Only the page decides which accesses run into the window. -/
theorem runsIntoWindow_congr {s t : State} (h : s.hhPage = t.hhPage) (addr width : Nat) :
    runsIntoWindow s addr width = runsIntoWindow t addr width := by
  unfold runsIntoWindow State.hhBase; rw [h]

@[simp] theorem regAt_cmd : regAt cmdOffset = some .cmd := rfl
@[simp] theorem regAt_status : regAt 0x48 = some .status := rfl
@[simp] theorem validAccess_cmd : validAccess cmdOffset Config.accessBytes = true := rfl
@[simp] theorem validAccess_status : validAccess 0x48 Config.accessBytes = true := rfl

/-- A valid access is 8 bytes wide, aligned, and inside the window (R53). -/
theorem validAccess_iff (off width : Nat) :
    validAccess off width = true ↔ width = 8 ∧ off % 8 = 0 ∧ off + width ≤ 0x100 := by
  simp only [validAccess, Bool.and_eq_true, beq_iff_eq, decide_eq_true_eq, and_assoc]
  exact Iff.rfl

/-! ## Bytes and lanes -/

@[simp] theorem laneBytes_length (v : Lanes) (n : Nat) : (laneBytes v n).length = n := by simp [laneBytes]

/-- Reading cells gives as many bytes as cells. -/
theorem allValues_length {α : Type} {xs : List (Option α)} {ys : List α} (h : allValues xs = some ys) :
    ys.length = xs.length := by
  induction xs generalizing ys with
  | nil => simp [allValues] at h; simp [h]
  | cons x xs ih =>
    cases x with
    | none => simp [allValues] at h
    | some a =>
      unfold allValues at h
      cases hx : allValues xs with
      | none => simp [hx] at h
      | some zs =>
        simp [hx] at h
        simp [← h, ih hx]

/-- Cells that all hold a value are read as these values. -/
theorem allValues_map_some {α : Type} (xs : List α) : allValues (xs.map some) = some xs := by
  induction xs with
  | nil => rfl
  | cons x xs ih => simp [allValues, ih]

/-- What is read is what the cells hold. -/
theorem allValues_eq_some {α : Type} {xs : List (Option α)} {ys : List α} (h : allValues xs = some ys) : xs = ys.map some := by
  induction xs generalizing ys with
  | nil => simp [allValues] at h; simp [h]
  | cons x xs ih =>
    cases x with
    | none => simp [allValues] at h
    | some a =>
      unfold allValues at h
      cases hx : allValues xs with
      | none => simp [hx] at h
      | some zs =>
        simp [hx] at h
        simp [← h, ih hx]

/-- The counted bytes of BUF are the first n cells (R24). -/
theorem bufBytes_eq_some_iff (buf : Vector (Option Byte) 32) (n : Nat) (ys : List Byte) :
    bufBytes buf n = some ys ↔ buf.toList.take n = ys.map some := by
  constructor
  · exact allValues_eq_some
  · intro h; simp [bufBytes, h, allValues_map_some]

/-! ## The accumulator -/

/-- The cells after a store: the stored ones from c on, every other cell as before. -/
theorem storeCells_toList (buf : Vector (Option Byte) 32) (c : Nat) (xs : List (Option Byte)) (h : c + xs.length ≤ 32) :
    (storeCells buf c xs).toList = buf.toList.take c ++ xs ++ buf.toList.drop (c + xs.length) := by
  induction xs generalizing buf c with
  | nil => simp [storeCells]
  | cons x xs ih =>
    have hc : c < buf.toList.length := by simp; simp at h; omega
    rw [storeCells, ih _ _ (by simp at h; omega)]
    have e : (buf.setIfInBounds c x).toList = buf.toList.set c x := by simp
    rw [e, List.set_eq_take_append_cons_drop, if_pos hc]
    have l : (buf.toList.take c).length = c := by simp; simp at hc; omega
    rw [List.take_append, List.drop_append, l]
    have e1 : c + 1 - c = 1 := by omega
    have e2 : c + 1 + xs.length - c = xs.length + 1 := by omega
    have t1 : List.take (c + 1) (List.take c buf.toList) = List.take c buf.toList := List.take_of_length_le (by omega)
    have t2 : List.drop (c + 1 + xs.length) (List.take c buf.toList) = [] := List.drop_of_length_le (by omega)
    rw [t1, t2, e1, e2]
    simp only [List.take_succ_cons, List.take_zero, List.drop_succ_cons, List.drop_drop, List.length_cons, List.nil_append,
      List.append_assoc, List.cons_append]
    congr 4
    omega

/-- Storing past the counted bytes extends them (R171). -/
theorem bufBytes_storeBytes (buf : Vector (Option Byte) 32) (c : Nat) (b ys : List Byte) (h : c + b.length ≤ 32)
    (hy : bufBytes buf c = some ys) : bufBytes (storeBytes buf c b) (c + b.length) = some (ys ++ b) := by
  rw [bufBytes_eq_some_iff] at hy ⊢
  rw [storeBytes, storeCells_toList buf c _ (by simpa using h)]
  have l : (buf.toList.take c ++ b.map some).length = c + b.length := by simp; omega
  rw [← l, List.take_left, hy, List.map_append]

/-- Forgetting leaves the first c cells and no others (R24). -/
theorem forgetFrom_toList (buf : Vector (Option Byte) 32) (c : Nat) (h : c ≤ 32) :
    (forgetFrom buf c).toList = buf.toList.take c ++ List.replicate (32 - c) none := by
  have e : c + (32 - c) = 32 := by omega
  rw [forgetFrom, storeCells_toList buf c _ (by simp; omega), List.length_replicate, e]
  simp

/-- What BUF holds once the cells from the count on are forgotten: the counted bytes, and no other value (R24). -/
theorem forgetFrom_of_bufBytes {buf : Vector (Option Byte) 32} {c : Nat} {ys : List Byte} (h : c ≤ 32)
    (hy : bufBytes buf c = some ys) : (forgetFrom buf c).toList = ys.map some ++ List.replicate (32 - c) none := by
  rw [bufBytes_eq_some_iff] at hy
  rw [forgetFrom_toList buf c h, hy]

/-- The counted bytes of a BUF whose cells are known. -/
theorem bufBytes_of_toList {buf : Vector (Option Byte) 32} {ys : List Byte} {xs : List (Option Byte)}
    (h : buf.toList = ys.map some ++ xs) : bufBytes buf ys.length = some ys := by
  rw [bufBytes_eq_some_iff, h]
  have l : (ys.map some).length = ys.length := by simp
  rw [← l, List.take_left]

/-- Past the counted bytes no cell has a value, where BUF holds no more than them (R24). -/
theorem getElem_of_toList {buf : Vector (Option Byte) 32} {ys : List Byte} {n : Nat}
    (h : buf.toList = ys.map some ++ List.replicate n none) (k : Fin 32) (hk : ys.length ≤ k.val) : buf[k] = none := by
  have hb : k.val < buf.toList.length := by simp
  have e : buf[k] = buf.toList[k.val] := by simp
  rw [e]
  simp only [h]
  rw [List.getElem_append_right (by simpa using hk)]
  simp

end Sys2Proof.Machine
end

