-- ==== Sys2Proof/Laws/PerInstr.lean ====
section
/-! SUPPORT. Statements made per command. Family EncodedFields: the fields of a command's word are those of the opcode map
(R71, R73). -/

namespace Sys2Proof.Laws.EncodedFields

/-- The word of a well-formed command has its OPC, its LEN, and zeros in RSVD and above (R71, R73). -/
def Statement (i : Instr) : Prop :=
  i.wf = true →
    opcField (cmdWrite (encode i)) = opcodeOf i ∧ (lenField (cmdWrite (encode i))).toNat = lenOf i ∧
      rsvdField (cmdWrite (encode i)) = 0 ∧ highField (cmdWrite (encode i)) = 0

/-- The statement for every command. -/
theorem all (i : Instr) : Statement i := by
  intro h
  refine ⟨opcField_encode i, ?_, rsvdField_encode i, highField_encode i⟩
  have hl := lenOf_lt_of_wf i h
  rw [lenField_encode, BitVec.toNat_ofNat]
  exact Nat.mod_eq_of_lt hl

theorem reset : Statement .reset := all _
theorem updatePacket : Statement .updatePacket := all _
theorem updateRemainder (len : Nat) : Statement (.updateRemainder len) := all _
theorem finalize64 : Statement .finalize64 := all _
theorem finalize128 : Statement .finalize128 := all _
theorem finalize256 : Statement .finalize256 := all _
theorem catStart : Statement .catStart := all _
theorem catAppend (len : Nat) : Statement (.catAppend len) := all _
theorem catFinish64 : Statement .catFinish64 := all _
theorem catFinish128 : Statement .catFinish128 := all _
theorem catFinish256 : Statement .catFinish256 := all _

end Sys2Proof.Laws.EncodedFields
end

