-- ==== Sys2Proof/Laws/Step.lean ====
section
/-! SUPPORT. What a command, an event and a step can do, said once, for the proofs that range over all of them. -/

namespace Sys2Proof.Machine

/-- The completion of each command (R204). -/
def completion : Instr → State → Result
  | .reset => completeReset
  | .updatePacket => completeUpdatePacket
  | .updateRemainder len => completeUpdateRemainder len
  | .finalize64 => completeFinalize64
  | .finalize128 => completeFinalize128
  | .finalize256 => completeFinalize256
  | .catStart => completeCatStart
  | .catAppend len => completeCatAppend len
  | .catFinish64 => completeCatFinish64
  | .catFinish128 => completeCatFinish128
  | .catFinish256 => completeCatFinish256

/-- A command's meaning is its admission and its completion. -/
theorem exec_eq (i : Instr) (s : State) : exec i s = onCommand i (completion i) s := by cases i <;> rfl

/-- Every command is admitted while the block is idle (R203). -/
theorem exec_idle (i : Instr) (s : State) (h : s.busy = false) : exec i s = .next (admission i s) := by
  rw [exec_eq, onCommand_idle _ _ _ h]

/-- Every command completes while the block is busy (R204). -/
theorem exec_busy (i : Instr) (s : State) (h : s.busy = true) : exec i s = completion i s := by
  rw [exec_eq, onCommand_busy _ _ _ h]

/-- The shapes of the next state of command i's completion (R37, R204): a computation opened, the lanes updated, the state
finalised, the accumulator moved on, a result written. -/
inductive Completed (i : Instr) (s : State) : State → Prop where
  | started (hi : isStart i = true) : Completed i s (s.startWith (initState s.din) (modeOf i)).finish
  | absorbed (h h' : HashState) (hi : i = .updatePacket ∨ ∃ len, i = .updateRemainder len) (hs : s.hash = some h) :
      Completed i s (s.setHash h').finish
  | finalized (h : HashState) (o : Lanes) (hi : i = .finalize64 ∨ i = .finalize128 ∨ i = .finalize256)
      (hs : s.hash = some h) : Completed i s ((s.setOut o).consume).finish
  | appended (h : HashState) (a : Accumulator) (len : Nat) (hi : i = .catAppend len) (hs : s.hash = some h)
      (ha : catAppend ⟨h, s.buf, s.cnt.toNat⟩ (laneBytes s.din len) = some a) :
      Completed i s ((s.setHash a.h).setBuffer a.buf (BitVec.ofNat 5 a.c)).finish
  | finished (h : HashState) (o : Lanes) (hi : i = .catFinish64 ∨ i = .catFinish128 ∨ i = .catFinish256)
      (hs : s.hash = some h) : Completed i s (s.setOut o).finish

theorem finalizeWith_completed {i : Instr} {f : HashState → Lanes} {s t : State}
    (hi : i = .finalize64 ∨ i = .finalize128 ∨ i = .finalize256) (h : finalizeWith f s = .next t) : Completed i s t := by
  obtain ⟨x, hx, h⟩ := withLanes_next h
  cases h
  exact .finalized x _ hi hx

theorem finishWith_completed {i : Instr} {f : HashState → Lanes} {s t : State}
    (hi : i = .catFinish64 ∨ i = .catFinish128 ∨ i = .catFinish256) (h : finishWith f s = .next t) : Completed i s t := by
  obtain ⟨x, hx, h⟩ := withLanes_next h
  split at h
  · cases h
  · cases h
    exact .finished x _ hi hx

theorem completeCatAppend_completed {len : Nat} {s t : State} (h : completeCatAppend len s = .next t) :
    Completed (.catAppend len) s t := by
  obtain ⟨x, hx, h⟩ := withLanes_next h
  split at h
  · cases h
  · rename_i a ha
    cases h
    exact .appended x a len rfl hx ha

/-- The next state of a pending command has one of these shapes (R204). -/
theorem exec_busy_completed {i : Instr} {s t : State} (hb : s.busy = true) (h : exec i s = .next t) : Completed i s t := by
  rw [exec_busy i s hb] at h
  cases i with
  | reset => cases h; exact .started rfl
  | catStart => cases h; exact .started rfl
  | updatePacket =>
    obtain ⟨x, hx, h⟩ := withLanes_next h
    cases h; exact .absorbed x _ (.inl rfl) hx
  | updateRemainder len =>
    obtain ⟨x, hx, h⟩ := withLanes_next h
    cases h; exact .absorbed x _ (.inr ⟨len, rfl⟩) hx
  | finalize64 => exact finalizeWith_completed (by simp) h
  | finalize128 => exact finalizeWith_completed (by simp) h
  | finalize256 => exact finalizeWith_completed (by simp) h
  | catAppend len => exact completeCatAppend_completed h
  | catFinish64 => exact finishWith_completed (by simp) h
  | catFinish128 => exact finishWith_completed (by simp) h
  | catFinish256 => exact finishWith_completed (by simp) h

/-- The shapes of the next state of one event. -/
inductive Happened (s : State) : State → Prop where
  | unchanged : Happened s s
  | refusedAccess : Happened s (s.record .busAccess)
  | refusedBusy (hb : s.busy = true) : Happened s (s.record .busyWrite)
  | refusedIllegal (hb : s.busy = false) : Happened s (s.record .illegalCmd)
  | dinWritten (i : Fin 4) (v : Word) (hb : s.busy = false) : Happened s (s.setDin i v)
  | submitted (i : Instr) (w : Word) (hb : s.busy = false) (hw : decode w = .command i) : Happened s (admission i s)
  | readDone (v : Word) : Happened s (s.logRead v)
  | completed (t : State) (i : Instr) (c : CmdWord) (hb : s.busy = true) (hp : s.pend = some c)
      (hd : decode (cmdWrite c) = .command i) (he : exec i s = .next t) (ht : Completed i s t) : Happened s t
  | poweredOn : Happened s s.powerOn

theorem onCmdWrite_happened {w : Word} {s t : State} (h : onCmdWrite w s = .next t) : Happened s t := by
  unfold onCmdWrite at h
  cases hb : s.busy with
  | true =>
    rw [hb, if_pos rfl] at h
    cases h; exact .refusedBusy hb
  | false =>
    rw [hb, if_neg (by decide)] at h
    split at h
    · cases h; exact .refusedIllegal hb
    · rename_i i hi
      rw [exec_idle i s hb] at h
      cases h; exact .submitted i w hb hi

theorem onDinWrite_happened {i : Fin 4} {w : Word} {s t : State} (h : onDinWrite i w s = .next t) : Happened s t := by
  unfold onDinWrite at h
  cases hb : s.busy with
  | true =>
    rw [hb, if_pos rfl] at h
    cases h; exact .refusedBusy hb
  | false =>
    rw [hb, if_neg (by decide)] at h
    cases h; exact .dinWritten i w hb

theorem onWrite_happened {off width : Nat} {w : Word} {s t : State} (h : onWrite off width w s = .next t) :
    Happened s t := by
  unfold onWrite at h
  split at h
  · split at h
    · exact onDinWrite_happened h
    · exact onCmdWrite_happened h
    all_goals (cases h; exact .refusedAccess)
  · cases h; exact .refusedAccess

/-- A completion turn of a busy block runs the pending command (R204). -/
theorem onComplete_busy {s : State} {c : CmdWord} {i : Instr} (hb : s.busy = true) (hp : s.pend = some c)
    (hd : decode (cmdWrite c) = .command i) : onComplete s = exec i s := by simp [onComplete, hb, hp, hd]

/-- A completion turn of an idle block changes nothing (R217). -/
theorem onComplete_idle {s : State} (hb : s.busy = false) : onComplete s = .next s := by simp [onComplete, hb]

theorem onComplete_happened {s t : State} (h : onComplete s = .next t) : Happened s t := by
  unfold onComplete at h
  cases hb : s.busy with
  | false =>
    rw [hb, if_neg (by decide)] at h
    cases h; exact .unchanged
  | true =>
    rw [hb, if_pos rfl] at h
    split at h
    · cases h
    · rename_i c hc
      split at h
      · cases h
      · rename_i i hi
        exact .completed t i c hb hc hi h (exec_busy_completed hb h)

theorem onHostWrite_happened {addr width : Nat} {w : Word} {s t : State} (h : onHostWrite addr width w s = .next t) :
    Happened s t := by
  unfold onHostWrite at h
  split at h
  · exact onWrite_happened h
  · split at h
    · cases h; exact .refusedAccess
    · cases h; exact .unchanged

theorem onHostRead_happened {addr width : Nat} {s t : State} (h : onHostRead addr width s = .next t) : Happened s t := by
  unfold onHostRead at h
  split at h
  · cases h; exact .readDone _
  · split at h
    · cases h; exact .readDone _
    · cases h; exact .unchanged

theorem onEvent_happened {e : Event} {s t : State} (h : onEvent e s = .next t) : Happened s t := by
  cases e with
  | write addr width w => exact onHostWrite_happened h
  | read addr width => exact onHostRead_happened h
  | complete => exact onComplete_happened h
  | powerOn => cases h; exact .poweredOn

/-- Everything one step can do: one event on the state whose agenda is what remains. -/
theorem step_happened {s t : State} (h : step s = .next t) : Happened (s.setAgenda s.agenda.tail) t := by
  unfold step takeTurn at h
  split at h
  · rename_i ha
    have e : s.setAgenda s.agenda.tail = s := by simp [State.setAgenda, ha]; rw [← ha]
    rw [e]; exact onComplete_happened h
  · rename_i ev rest ha
    rw [ha]; exact onEvent_happened h

/-- A step takes the head off the agenda. -/
theorem step_cons {s : State} {e : Event} {rest : List Event} (h : s.agenda = e :: rest) :
    step s = onEvent e (s.setAgenda rest) := by simp [step, takeTurn, h]

/-- With an empty agenda the pending command completes. -/
theorem step_nil {s : State} (h : s.agenda = []) : step s = onComplete s := by simp [step, takeTurn, h]

@[simp] theorem setAgenda_hhBase (s : State) (es : List Event) : (s.setAgenda es).hhBase = s.hhBase := rfl

/-- A step whose event is a write in the window. -/
theorem step_write {s : State} {off width : Nat} {v : Word} {rest : List Event} (ho : off < 0x100)
    (h : s.agenda = .write (s.hhBase + off) width v :: rest) : step s = onWrite off width v (s.setAgenda rest) := by
  rw [step_cons h]
  simp only [onEvent, onHostWrite]
  rw [← setAgenda_hhBase s rest, windowOffset_base _ _ ho]

/-- A step whose event is a read in the window. -/
theorem step_read {s : State} {off width : Nat} {rest : List Event} (ho : off < 0x100)
    (h : s.agenda = .read (s.hhBase + off) width :: rest) : step s = onRead off width (s.setAgenda rest) := by
  rw [step_cons h]
  simp only [onEvent, onHostRead]
  rw [← setAgenda_hhBase s rest, windowOffset_base _ _ ho]

/-! ## Runs -/

theorem runSteps_zero (s : State) : runSteps 0 s = .next s := rfl

/-- One step, and the rest of the run. -/
theorem runSteps_succ {s t : State} (n : Nat) (h : step s = .next t) : runSteps (n + 1) s = runSteps n t := by
  have hc : Host.Core.step Sys2Proof.core s = .next t := h
  simp only [runSteps, Host.Core.run]
  rw [hc]

/-- Two runs, one after the other. -/
theorem runSteps_add {s t : State} (m n : Nat) (h : runSteps m s = .next t) : runSteps (m + n) s = runSteps n t := by
  induction m generalizing s with
  | zero => cases h; rw [Nat.zero_add]
  | succ m ih =>
    have e : m + 1 + n = (m + n) + 1 := by omega
    cases hs : step s with
    | next u => rw [runSteps_succ m hs] at h; rw [e, runSteps_succ (m + n) hs, ih h]
    | fault r =>
      have hc : Host.Core.step Sys2Proof.core s = .fault r := hs
      simp only [runSteps, Host.Core.run] at h
      rw [hc] at h
      cases h
    | refused r =>
      have hc : Host.Core.step Sys2Proof.core s = .refused r := hs
      simp only [runSteps, Host.Core.run] at h
      rw [hc] at h
      cases h

end Sys2Proof.Machine
end

