-- ==== Sys2Proof/Laws/Streaming.lean ====
section
/-! SUPPORT. What CatAppend does, said once in terms of the byte string it works on: the buffered bytes followed by the new
ones (R171). -/

namespace Sys2Proof.Machine

/-- Absorbing m + n blocks is absorbing m, then n of what follows. -/
theorem absorbBlocks_add (m n : Nat) (h : HashState) (b : List Byte) :
    absorbBlocks (m + n) h b = absorbBlocks n (absorbBlocks m h b) (b.drop (32 * m)) := by
  induction m generalizing h b with
  | zero => simp [absorbBlocks]
  | succ m ih =>
    have e : m + 1 + n = (m + n) + 1 := by omega
    have e2 : 32 + 32 * m = 32 * (m + 1) := by omega
    rw [e, absorbBlocks, absorbBlocks, ih, List.drop_drop, e2]

/-- Bytes after the blocks do not matter. -/
theorem absorbBlocks_append (n : Nat) (h : HashState) (b c : List Byte) (hn : 32 * n ≤ b.length) :
    absorbBlocks n h (b ++ c) = absorbBlocks n h b := by
  induction n generalizing h b with
  | zero => rfl
  | succ n ih =>
    rw [absorbBlocks, absorbBlocks, List.take_append_of_le_length (by omega), List.drop_append_of_le_length (by omega),
      ih _ _ (by simp; omega)]

/-- The counted bytes are as many as the count. -/
theorem bufBytes_length {buf : Vector (Option Byte) 32} {n : Nat} {xs : List Byte} (hn : n ≤ 32)
    (h : bufBytes buf n = some xs) : xs.length = n := by
  have := allValues_length h
  simp at this
  omega

/-- No cell is read for a count of 0. -/
theorem bufBytes_zero (buf : Vector (Option Byte) 32) : bufBytes buf 0 = some [] := by simp [bufBytes, allValues]

/-- CatAppend on an accumulator that buffers xs: the whole blocks of xs ++ b are absorbed, the rest is buffered, and no other
cell of BUF keeps a value (R24, R171). -/
theorem catAppend_spec (a : Accumulator) (xs b : List Byte) (hc : a.c < 32) (hx : bufBytes a.buf a.c = some xs) :
    ∃ a', catAppend a b = some a' ∧ a'.h = absorbBlocks ((xs ++ b).length / 32) a.h (xs ++ b) ∧
      a'.c = (xs ++ b).length % 32 ∧
      a'.buf.toList =
        ((xs ++ b).drop (32 * ((xs ++ b).length / 32))).map some ++ List.replicate (32 - (xs ++ b).length % 32) none := by
  have hl : xs.length = a.c := bufBytes_length (by omega) hx
  by_cases h0 : a.c = 0
  · have hxs : xs = [] := List.eq_nil_of_length_eq_zero (by omega)
    subst hxs
    have ht : (b.drop (32 * (b.length / 32))).length = b.length % 32 := by rw [List.length_drop]; omega
    have h1 : 0 + (b.drop (32 * (b.length / 32))).length ≤ 32 := by omega
    have h2 := forgetFrom_of_bufBytes h1 (bufBytes_storeBytes a.buf 0 _ [] h1 (bufBytes_zero _))
    refine ⟨_, by simp only [catAppend, topUp, if_pos h0]; rfl, rfl, by simp [h0]; omega, ?_⟩
    simp only [h0]
    rw [h2, ht]
    simp
  · by_cases hk : 32 ≤ a.c + b.length
    · have hmin : min b.length (32 - a.c) = 32 - a.c := by omega
      have htl : (b.take (32 - a.c)).length = 32 - a.c := by rw [List.length_take]; omega
      have hfull := bufBytes_storeBytes a.buf a.c (b.take (32 - a.c)) xs (by omega) hx
      have e32 : a.c + (b.take (32 - a.c)).length = 32 := by omega
      have e32' : a.c + (32 - a.c) = 32 := by omega
      rw [e32] at hfull
      have hlen : (xs ++ b).length = 32 + (b.drop (32 - a.c)).length := by rw [List.length_append, List.length_drop]; omega
      have hq : (xs ++ b).length / 32 = (b.drop (32 - a.c)).length / 32 + 1 := by omega
      have htake : (xs ++ b).take 32 = xs ++ b.take (32 - a.c) := by
        rw [List.take_append, hl, List.take_of_length_le (by omega)]
      have hdrop : (xs ++ b).drop 32 = b.drop (32 - a.c) := by
        rw [List.drop_append, hl, List.drop_of_length_le (by omega), List.nil_append]
      have hdd : (xs ++ b).drop (32 * ((b.drop (32 - a.c)).length / 32 + 1)) =
          (b.drop (32 - a.c)).drop (32 * ((b.drop (32 - a.c)).length / 32)) := by
        rw [← hdrop, List.drop_drop]; congr 1; omega
      have htail : ((b.drop (32 - a.c)).drop (32 * ((b.drop (32 - a.c)).length / 32))).length =
          (b.drop (32 - a.c)).length % 32 := by rw [List.length_drop]; omega
      refine ⟨_, by simp only [catAppend, topUp, if_neg h0, hmin, if_pos e32', hfull]; rfl, ?_, ?_, ?_⟩
      · rw [hq, absorbBlocks, htake, hdrop]
      · simp only [htail]; omega
      · have h1 : 0 + ((b.drop (32 - a.c)).drop (32 * ((b.drop (32 - a.c)).length / 32))).length ≤ 32 := by omega
        have hm : (xs ++ b).length % 32 = (b.drop (32 - a.c)).length % 32 := by omega
        rw [hq, hdd, hm, forgetFrom_of_bufBytes h1 (bufBytes_storeBytes _ 0 _ [] h1 (bufBytes_zero _)), htail]
        simp
    · have hmin : min b.length (32 - a.c) = b.length := by omega
      have hne : ¬ a.c + b.length = 32 := by omega
      have hd : (xs ++ b).length / 32 = 0 := by rw [List.length_append]; omega
      have htk : b.take b.length = b := List.take_length
      have hdr : b.drop b.length = [] := List.drop_length
      have h1 : a.c + b.length ≤ 32 := by omega
      have hm : (xs ++ b).length % 32 = a.c + b.length := by rw [List.length_append]; omega
      refine ⟨_, by simp only [catAppend, topUp, if_neg h0, hmin, if_neg hne, htk, hdr]; rfl, ?_, ?_, ?_⟩
      · rw [hd]; rfl
      · simp; omega
      · have h2 := forgetFrom_of_bufBytes h1 (bufBytes_storeBytes a.buf a.c b xs h1 hx)
        rw [hd, hm]
        simpa [storeBytes, storeCells] using h2

/-- The counted bytes after CatAppend (R171). -/
theorem catAppend_bufBytes (a : Accumulator) (xs b : List Byte) (hc : a.c < 32) (hx : bufBytes a.buf a.c = some xs) :
    ∃ a', catAppend a b = some a' ∧ bufBytes a'.buf a'.c = some ((xs ++ b).drop (32 * ((xs ++ b).length / 32))) := by
  obtain ⟨a', h1, -, h3, h4⟩ := catAppend_spec a xs b hc hx
  have l : ((xs ++ b).drop (32 * ((xs ++ b).length / 32))).length = a'.c := by rw [List.length_drop, h3]; omega
  exact ⟨a', h1, l ▸ bufBytes_of_toList h4⟩

end Sys2Proof.Machine
end

