-- ==== Sys2Proof/Tests/Slice0.lean ====
section
/-! SUPPORT. The model's own tests. Expected values come from the spec: 30_encoding.md for words, 95_test_vectors.md for states
and results. Then, for every statement with hypotheses, a witness that meets them. -/

namespace Sys2Proof.Tests

set_option Elab.async false

open Sys2Proof Sys2Proof.Machine

/-! ## Small states -/

/-- The key K of 95_test_vectors.md; as a block, the bytes 0x00..0x1F. -/
def keyK : Lanes := ⟨0x0706050403020100, 0x0F0E0D0C0B0A0908, 0x1716151413121110, 0x1F1E1D1C1B1A1918⟩

/-- The key [1, 2, 3, 4]. -/
def key1 : Lanes := ⟨1, 2, 3, 4⟩

/-- RAW live: after RESET K. -/
def rawLive : State := { State.reset with hash := some (initState keyK), live := true, din := keyK }

/-- CAT live: after CAT_START K. -/
def catLive : State := { rawLive with mode := .cat }

/-- The bytes of "Hello world!". -/
def hello : List Byte := [0x48, 0x65, 0x6C, 0x6C, 0x6F, 0x20, 0x77, 0x6F, 0x72, 0x6C, 0x64, 0x21]

/-- CAT live with key [1, 2, 3, 4] and the first n bytes of "Hello world!" buffered. -/
def catHello (n : Nat) : State :=
  { catLive with
    hash := some (initState key1)
    buf := storeBytes State.reset.buf 0 (hello.take n)
    cnt := BitVec.ofNat 5 n }

/-- RAW live, the window at 0x200. -/
def rawPage2 : State := { rawLive with hhPage := 2 }

/-- A state in which a command is pending. -/
def pending (i : Instr) (s : State) : State := { s with busy := true, pend := some (encode i) }

/-- A state whose next event is e. -/
def before (e : Event) (s : State) : State := { s with agenda := [e] }

/-- STATUS after one step. -/
def statusAfter (s : State) : Option Word := (nextOf (step s)).map statusWord

/-- The lanes after a command's turn. -/
def lanesAfter (i : Instr) (s : State) : Option HashState := (nextOf (exec i s)).bind State.hash

/-- OUT after a command's turn. -/
def outAfter (i : Instr) (s : State) : Option Lanes := (nextOf (exec i s)).map State.out

/-! ## Well-formedness: an ill-formed term for each check -/

theorem test_wf_refuses_remainder_length_64 : (Instr.updateRemainder 64).wf = false := by decide
theorem test_wf_refuses_append_length_64 : (Instr.catAppend 64).wf = false := by decide
theorem test_wf_takes_length_63 : (Instr.updateRemainder 63).wf = true ∧ (Instr.catAppend 63).wf = true := by decide

/-! ## Decoding: words written out from R71 and R73 (OPC 7:0, LEN 13:8) -/

theorem test_decode_reset : decode 0b00000000_00000000_00000000_00000001 = .command .reset := by decide
theorem test_decode_update_packet : decode 0b00000000_00000000_00000000_00000010 = .command .updatePacket := by decide
theorem test_decode_update_remainder_31 :
    decode 0b00000000_00000000_00011111_00000011 = .command (.updateRemainder 31) := by decide
theorem test_decode_finalize64 : decode 0b00000000_00000000_00000000_00000100 = .command .finalize64 := by decide
theorem test_decode_finalize128 : decode 0b00000000_00000000_00000000_00000101 = .command .finalize128 := by decide
theorem test_decode_finalize256 : decode 0b00000000_00000000_00000000_00000110 = .command .finalize256 := by decide
theorem test_decode_cat_start : decode 0b00000000_00000000_00000000_00010001 = .command .catStart := by decide
theorem test_decode_cat_append_32 : decode 0b00000000_00000000_00100000_00010010 = .command (.catAppend 32) := by decide
theorem test_decode_cat_finish64 : decode 0b00000000_00000000_00000000_00010100 = .command .catFinish64 := by decide
theorem test_decode_cat_finish128 : decode 0b00000000_00000000_00000000_00010101 = .command .catFinish128 := by decide
theorem test_decode_cat_finish256 : decode 0b00000000_00000000_00000000_00010110 = .command .catFinish256 := by decide

/-- R74 and V6: opcode 0, opcode 7, RESET with LEN 1, bit 14, bit 32. -/
theorem test_decode_illegal :
    decode 0x00 = .illegal .opcode ∧ decode 0x07 = .illegal .opcode ∧ decode 0x101 = .illegal .lenNonzero ∧
      decode 0x4002 = .illegal .reserved ∧ decode 0x0000000100000002 = .illegal .highBits := by decide

theorem test_decode_short_write : decodeBytes [0x01, 0, 0, 0] = (.illegal .truncated, [0x01, 0, 0, 0]) := by decide

/-- The table numbers bit 0 as the least significant bit of the word (R71). -/
theorem test_table_word : decodeTableWord 32 0x00002112 = some (.catAppend 33) ∧ decodeTableWord 32 0x4002 = none := by
  decide +kernel

/-- R73: the words of the two LEN opcodes. -/
theorem test_encode : encode (.updateRemainder 5) = 0x00000503 ∧ encode (.catAppend 32) = 0x00002012 := by decide

/-! ## The commands: 95_test_vectors.md -/

/-- V1, key K. -/
theorem test_reset_lanes :
    (lanesAfter .reset (pending .reset { State.reset with din := keyK })).map (fun h => (h.v0, h.v1)) =
      some (⟨0xDCE0D0D1FD4ECF2F, 0xAB07352E229538D8, 0x040F9F3A10626254, 0x3B2177949EB911CB⟩,
        ⟨0x38D19F10CC08F097, 0xCBA6F861BAFF8780, 0xAD4677DF23FF1978, 0x5E3238FE27CE0E6B⟩) := by decide +kernel

/-- V6: `cat_start` with ERR = 1 is accepted and clears the error (0x4A to 0x03); the same check for RESET. -/
theorem test_reset_clears_error :
    statusAfter ({ rawLive with err := true, errcode := .badLen }.withFetchWord 32 0x01) = some 0x03 := by decide +kernel

/-- V2 row 1. -/
theorem test_update_packet_state :
    lanesAfter .updatePacket (pending .updatePacket rawLive) =
      some ⟨⟨0xDF332EA141B5548F, 0x870CE55A162FAE53, 0x8F05A3985CCD10FA, 0x57A00FAB9814470A⟩,
        ⟨0xAB45CDF6FC0D1A07, 0x5E11713ED4D8636E, 0xD1CD27C1DE4F4928, 0x3099C5E9D79FC8EE⟩,
        ⟨0x6ACD68C11BF8BE89, 0x0415411531681200, 0x13F4125D3223077C, 0x0A6D214934A6E36B⟩,
        ⟨0x2E6566D33EBF7EC7, 0xAB9FCD28F9FC7250, 0x840637C436C58AAC, 0xCD2E69DFAA4900B3⟩⟩ := by decide +kernel

/-- V6: NOT_LIVE after power-on. -/
theorem test_update_packet_not_live : statusAfter (State.reset.withFetchWord 32 0x02) = some 0x28 := by decide +kernel

/-- V3: n = 31. -/
theorem test_update_remainder_31 :
    (lanesAfter (.updateRemainder 31) (pending (.updateRemainder 31) rawLive)).map HashState.v0 =
      some ⟨0x934CB6EC72B123C8, 0x6B4C7CB599AF2615, 0xD2D5179E20CD9207, 0x806A6BC37B2D5695⟩ := by decide +kernel

/-- V6: BAD_LEN for LEN 0 and 32, acceptance for 31. -/
theorem test_update_remainder_lengths :
    statusAfter (rawLive.withFetchWord 32 0x003) = some 0x4A ∧ statusAfter (rawLive.withFetchWord 32 0x2003) = some 0x4A ∧
      statusAfter (rawLive.withFetchWord 32 0x1F03) = some 0x03 := by decide +kernel

/-- V4.2. -/
theorem test_finalize64_out :
    outAfter .finalize64 (pending .finalize64 rawLive) = some ⟨0x907A56DE22C26E53, 0, 0, 0⟩ := by decide +kernel

/-- V4.2. -/
theorem test_finalize128_out :
    outAfter .finalize128 (pending .finalize128 rawLive) = some ⟨0x0FED268F9D8FFEC7, 0x33565E767F093E6F, 0, 0⟩ := by
  decide +kernel

/-- V4.2. -/
theorem test_finalize256_out :
    outAfter .finalize256 (pending .finalize256 rawLive) =
      some ⟨0xDD44482AC2C874F5, 0xD946017313C7351F, 0xB3AEBECCB98714FF, 0x41DA233145751DF4⟩ := by decide +kernel

/-- P1: after FINALIZE64 STATUS is 0, and the state has no lanes. -/
theorem test_finalize64_consumes :
    (nextOf (exec .finalize64 (pending .finalize64 rawLive))).map (fun t => (statusWord t, t.hash)) = some (0, none) := by
  decide +kernel

/-- V6: `finalize64` on a CAT computation is WRONG_MODE. -/
theorem test_finalize64_wrong_mode : statusAfter (catLive.withFetchWord 32 0x04) = some 0x3E := by decide +kernel

/-- S1: the lanes of key [1, 2, 3, 4] and STATUS. -/
theorem test_cat_start :
    (nextOf (exec .catStart (pending .catStart { State.reset with din := key1 }))).map
        (fun t => (t.hash.map (fun h => (h.v0.l0, h.v1.l0)), statusWord t)) =
      some (some (0xDBE6D5D5FE4CCE2E, 0x3BD39E11CB0EF593), 0x06) := by decide +kernel

/-- S7: 32 bytes onto 5 buffered ones: one flush, five bytes left. -/
theorem test_cat_append_flush :
    (nextOf (exec (.catAppend 32) (pending (.catAppend 32) (catHello 5)))).map
        (fun t => (t.hash.map HashState.v0, t.cnt, bufBytes t.buf 5)) =
      some (some ⟨0x22289DA63E2457F6, 0x7E15E54C11261443, 0x8CF17C7D39C000F9, 0x4CC50B9F62FB2622⟩, 5,
        some [0x1B, 0x1C, 0x1D, 0x1E, 0x1F]) := by decide +kernel

/-- V6: LEN 33 is BAD_LEN, LEN 0 is accepted. -/
theorem test_cat_append_lengths :
    statusAfter (catLive.withFetchWord 32 0x2112) = some 0x4E ∧ statusAfter (catLive.withFetchWord 32 0x012) = some 0x07 := by
  decide +kernel

/-- E1. -/
theorem test_cat_finish64_out :
    outAfter .catFinish64 (pending .catFinish64 (catHello 12)) = some ⟨0x5FCD7EDF392B3567, 0, 0, 0⟩ := by decide +kernel

/-- E1. -/
theorem test_cat_finish128_out :
    outAfter .catFinish128 (pending .catFinish128 (catHello 12)) = some ⟨0xA9F859C79272FD98, 0xFD4F73225E6C3313, 0, 0⟩ := by
  decide +kernel

/-- E1. -/
theorem test_cat_finish256_out :
    outAfter .catFinish256 (pending .catFinish256 (catHello 12)) =
      some ⟨0xCD6A55D1B0261AAA, 0x5207E47A2DA4B103, 0x481C614AFFA85DE2, 0x35F18B1A670B4B29⟩ := by decide +kernel

/-- V6: `cat_finish64` on a RAW computation is WRONG_MODE. -/
theorem test_cat_finish64_wrong_mode : statusAfter (rawLive.withFetchWord 32 0x14) = some 0x3A := by decide +kernel

/-! ## The functions and the bus -/

/-- V2: the zipper merge of the bytes 0..15. -/
theorem test_zipper_merge :
    zipperMerge 0x0F0E0D0C0B0A0908 0x0706050403020100 = (0x000F010E05020C03, 0x070806090D0A040B) := by decide +kernel

/-- V3: Rotate32By. -/
theorem test_rotate32By :
    rotate32By 1 0x8000000180000001 = 0x0000000300000003 ∧ rotate32By 31 0x0000000100000001 = 0x8000000080000000 := by
  decide +kernel

/-- V3: the packet of seq(31). -/
theorem test_pack_31 :
    lanesOf (packRemainder (laneBytes keyK 31)) =
      ⟨0x0706050403020100, 0x0F0E0D0C0B0A0908, 0x1716151413121110, 0x1E1D1C1B1B1A1918⟩ := by decide +kernel

/-- V3: the packet of seq(7). -/
theorem test_pack_7 :
    lanesOf (packRemainder (laneBytes keyK 7)) = ⟨0x0000000003020100, 0, 0x0000000000060504, 0⟩ := by decide +kernel

/-- V4.1: the masked bits are discarded, and a2's top bit folds to 3. -/
theorem test_modular_reduction :
    modularReduction 0xC000000000000000 0 0 0 = (0, 0) ∧ modularReduction 0 0x8000000000000000 0 0 = (3, 0) := by
  decide +kernel

/-- V6: writes while BUSY, to read-only and unmapped offsets, of 4 bytes, misaligned. -/
theorem test_refused_writes :
    statusAfter (before (wr 0 0x00 5) (pending .updatePacket rawLive)) = some 0x6B ∧
      statusAfter (before (wr 0 0x40 0x07) (pending .updatePacket rawLive)) = some 0x6B ∧
      statusAfter (before (wr 0 0x20 1) rawLive) = some 0x5A ∧ statusAfter (before (wr 0 0x48 0) rawLive) = some 0x5A ∧
      statusAfter (before (wr 0 0x50 1) rawLive) = some 0x5A ∧
      statusAfter (before (.write 0x00 4 1) rawLive) = some 0x5A ∧
      statusAfter (before (.write 0x04 8 1) rawLive) = some 0x5A := by decide +kernel

/-- R53: an access of 2 bytes that starts on the byte below the window is invalid; one that ends there is not the block's. -/
theorem test_access_from_below :
    statusAfter (before (.write 0x1FF 2 1) rawPage2) = some 0x5A ∧
      (nextOf (step (before (.read 0x1FF 2) rawPage2))).map State.reads = some [0] ∧
      statusAfter (before (.write 0x1F8 8 1) rawPage2) = some 0x02 := by decide +kernel

/-- R24: after a flush the cells at CNT and beyond hold no value; after CAT_START none does. -/
theorem test_stale_bytes_are_unknown :
    (nextOf (exec (.catAppend 32) (pending (.catAppend 32) (catHello 5)))).map (fun t => (t.buf[4].isSome, t.buf[5], t.buf[31])) =
        some (true, none, none) ∧
      (nextOf (exec .catStart (pending .catStart (catHello 5)))).map (fun t => t.buf[0]) = some none := by decide +kernel

/-- V6: reads of CMD, of an unmapped offset and of 4 bytes return 0; STATUS reads its word. -/
theorem test_reads :
    (nextOf (step (before (rd 0 0x40) rawLive))).map State.reads = some [0] ∧
      (nextOf (step (before (rd 0 0x50) rawLive))).map State.reads = some [0] ∧
      (nextOf (step (before (.read 0x48 4) rawLive))).map State.reads = some [0] ∧
      (nextOf (step (before (rd 0 0x48) rawLive))).map State.reads = some [0x02] := by decide +kernel

/-- R230: power-on reset abandons a pending command. -/
theorem test_power_on : nextOf (step (before .powerOn (pending .updatePacket rawLive))) = some State.reset := by
  decide +kernel

/-! ## Witnesses: states and operands that meet the hypotheses of each statement -/

/-- A block idle after an error, live. -/
def rawErr : State := { rawLive with err := true, errcode := .badLen }

theorem test_witness_DecodeOfEncodeIsTheCommand : (Instr.updateRemainder 63).wf = true := by decide

theorem test_witness_EncodeOfDecodeIsTheWrite : decode 0x3F12 = .command (.catAppend 63) := by decide

theorem test_witness_IllegalEncodingsAreExactlyTheListedOnes :
    (before (wr 0 0x40 0x13) rawLive).busy = false ∧ decode 0x13 = .illegal .opcode ∧
      (before (wr 0 0x40 0x13) rawLive).agenda = wr (before (wr 0 0x40 0x13) rawLive).hhBase 0x40 0x13 :: [] := by decide

theorem test_witness_LenOutOfRangeDecodesAndIsRefused :
    ((0 = 0 ∨ 32 ≤ 0) ∧ 0 < 64 ∧ 32 ≤ 63 ∧ 63 < 64 ∧ 33 ≤ 33 ∧ 33 < 64) ∧
      (rawLive.busy = false ∧ rawLive.err = false ∧ rawLive.live = true ∧ rawLive.mode = .raw) ∧
      catLive.busy = false ∧ catLive.err = false ∧ catLive.live = true ∧ catLive.mode = .cat := by decide

theorem test_witness_StepRunsTheDecodedCommand :
    (rawLive.busy = false ∧ decode 0x02 = .command .updatePacket ∧
      (before (wr 0 0x40 0x02) rawLive).agenda = wr (before (wr 0 0x40 0x02) rawLive).hhBase 0x40 0x02 :: []) ∧
    ((pending .updatePacket rawLive).busy = true ∧ (pending .updatePacket rawLive).pend = some 0x02 ∧
      decode (cmdWrite 0x02) = .command .updatePacket ∧
      (before .complete (pending .updatePacket rawLive)).agenda = .complete :: [] ∧
      (pending .updatePacket rawLive).agenda = []) ∧
    decodeTableWord 32 0x02 = some .updatePacket ∧
    ((before .complete rawLive).busy = false ∧ (before .complete rawLive).agenda = .complete :: [] ∧ rawLive.agenda = []) := by
  decide +kernel

/-- One witness for each clause: busy, illegal, start, dropped, not live, wrong mode both ways, bad length, accepted. -/
theorem test_witness_AdmissionFollowsItsOrder :
    ((before (wr 0 0x40 0x02) rawLive).agenda = wr (before (wr 0 0x40 0x02) rawLive).hhBase 0x40 0x02 :: []) ∧
    (pending .updatePacket rawLive).busy = true ∧
    (rawLive.busy = false ∧ decode 0 = .illegal .opcode) ∧
    decode 0x01 = .command .reset ∧
    (rawErr.busy = false ∧ rawErr.err = true ∧ RawCommand .updatePacket ∧ decode 0x02 = .command .updatePacket) ∧
    (State.reset.err = false ∧ State.reset.live = false) ∧
    (catLive.err = false ∧ catLive.live = true ∧ catLive.mode = .cat) ∧
    (rawLive.mode = .raw ∧ CatCommand .catFinish64 ∧ decode 0x14 = .command .catFinish64) ∧
    (BadLen (.updateRemainder 32) ∧ decode 0x2003 = .command (.updateRemainder 32)) ∧
    ¬ BadLen (.updateRemainder 31) ∧ ¬ BadLen (.updateRemainder 1) ∧ ¬ BadLen (.catAppend 32) := by
  refine ⟨by decide, by decide, by decide, by decide, ⟨by decide, by decide, trivial, by decide⟩, by decide, by decide,
    ⟨by decide, trivial, by decide⟩, ⟨by simp [BadLen], by decide⟩, by simp [BadLen], by simp [BadLen], by simp [BadLen]⟩

theorem test_witness_FirstErrorIsKept : rawLive.err = false ∧ rawErr.err = true := by decide

/-- A refused write, a power-on and an accepted start, each from a state with ERR = 1. -/
theorem test_witness_ErrorsClearOnlyByAStartOrPowerOn :
    (nextOf (step (before (wr 0 0x50 1) rawErr))).map State.err = some true ∧
      (nextOf (step (before .powerOn rawErr))).map State.err = some false ∧
      (nextOf (step (before (wr 0 0x40 0x11) rawErr))).map State.err = some false := by decide +kernel

/-- A refused, a stored and an accepted write. -/
theorem test_witness_WriteRefusedStoredOrAccepted :
    (nextOf (step (before (wr 0 0x48 0) rawLive))).isSome = true ∧
      (nextOf (step (before (wr 0 0x18 7) rawLive))).map (fun t => t.din.l3) = some 7 ∧
      (nextOf (step (before (wr 0 0x40 0x02) rawLive))).map State.busy = some true := by decide +kernel

theorem test_witness_WritesWhileBusyAreRefused :
    (before (wr 0 0x18 1) (pending .finalize64 rawLive)).busy = true ∧
      (before (wr 0 0x18 1) (pending .finalize64 rawLive)).agenda = wr (pending .finalize64 rawLive).hhBase 0x18 1 :: [] ∧
      (before (rd 0 0x48) (pending .finalize64 rawLive)).agenda = rd (pending .finalize64 rawLive).hhBase 0x48 :: [] ∧
      (before (rd 0 0x38) (pending .finalize64 rawLive)).agenda =
        rd (pending .finalize64 rawLive).hhBase (0x20 + 8 * (3 : Fin 4).val) :: [] := by decide

/-- An access that starts at the last byte of the window, one of 4 bytes, and at page 2 one that starts on the byte below it. -/
theorem test_witness_InvalidAccessesAreRefused :
    (rawLive.hhBase ≤ 0xFF ∧ 0xFF < rawLive.hhBase + 0x100 ∧
      ¬ (8 = 8 ∧ rawLive.hhBase ≤ 0xFF ∧ (0xFF - rawLive.hhBase) % 8 = 0 ∧ 0xFF + 8 ≤ rawLive.hhBase + 0x100) ∧
      (before (.write 0xFF 8 1) rawLive).agenda = .write 0xFF 8 1 :: []) ∧
    ¬ (4 = 8 ∧ rawLive.hhBase ≤ 0x48 ∧ (0x48 - rawLive.hhBase) % 8 = 0 ∧ 0x48 + 4 ≤ rawLive.hhBase + 0x100) ∧
    (rawPage2.hhBase < 0x1FF + 2 ∧ 0x1FF < rawPage2.hhBase + 0x100 ∧
      ¬ (2 = 8 ∧ rawPage2.hhBase ≤ 0x1FF ∧ (0x1FF - rawPage2.hhBase) % 8 = 0 ∧ 0x1FF + 2 ≤ rawPage2.hhBase + 0x100) ∧
      (before (.read 0x1FF 2) rawPage2).agenda = .read 0x1FF 2 :: []) := by decide

theorem test_witness_ReadsReturnRegistersAndChangeNothing :
    0xF8 < 0x100 ∧ 0xF8 % 8 = 0 ∧ (before (rd 0 0xF8) rawLive).agenda = rd rawLive.hhBase 0xF8 :: [] ∧
      ({ rawLive with agenda := [rd 0 0x48, rd 0 0x48] } : State).agenda =
        rd rawLive.hhBase 0x48 :: rd rawLive.hhBase 0x48 :: [] := by decide

/-- A DIN write idle and busy, with and without an error; CMD; the offsets on both sides of it. -/
theorem test_witness_WritesReachDinAndCmdOnly :
    (before (wr 0 0x00 1) rawErr).agenda = wr rawErr.hhBase 0x00 1 :: [] ∧ rawErr.busy = false ∧
      (pending .reset rawLive).busy = true ∧ (before (wr 0 0x18 1) rawLive).agenda = wr rawLive.hhBase 0x18 1 :: [] ∧
      (before (wr 0 0x40 1) rawLive).agenda = wr rawLive.hhBase 0x40 1 :: [] ∧
      (0x20 ≤ 0x38 ∧ 0x38 ≠ 0x40 ∧ 0x38 % 8 = 0) ∧ (0x20 ≤ 0x48 ∧ 0x48 ≠ 0x40 ∧ 0x48 < 0x100) := by decide

theorem test_witness_StatusWordFields :
    rawLive.errorOk ∧ rawLive.err = false ∧ (before (rd 0 0x48) rawLive).agenda = rd rawLive.hhBase 0x48 :: [] ∧
      (before (wr 0 0x48 1) rawLive).agenda = wr rawLive.hhBase 0x48 1 :: [] := by decide

theorem test_witness_PowerOnAbandonsThePendingCommand :
    (before .powerOn (pending .updatePacket rawLive)).agenda = .powerOn :: [] := by decide

/-- The first and the last byte of the window at page 2; an access that ends just below it, one that starts just above it. -/
theorem test_witness_WindowIsAtHhBase :
    windowOffset rawPage2 0x200 = some 0 ∧ windowOffset rawPage2 0x2FF = some 0xFF ∧
      (0x1F8 < rawPage2.hhBase ∧ 0x1F8 + 8 ≤ rawPage2.hhBase ∧
        (before (.read 0x1F8 8) rawPage2).agenda = .read 0x1F8 8 :: []) ∧
      rawPage2.hhBase + 0x100 ≤ 0x300 ∧ (before (.write 0x300 8 1) rawPage2).agenda = .write 0x300 8 1 :: [] := by decide

theorem test_witness_StartCommandsComplete : (pending .reset rawErr).busy = true := by decide

theorem test_witness_StartCommandsAreAlwaysAdmitted : rawErr.busy = false ∧ State.reset.busy = false := by decide

theorem test_witness_UpdatePacketCompletes :
    (pending .updatePacket rawLive).busy = true ∧ (pending .updatePacket rawLive).hash = some (initState keyK) := by decide

theorem test_witness_UpdateRemainderCompletes :
    (pending (.updateRemainder 31) rawLive).busy = true ∧
      (pending (.updateRemainder 31) rawLive).hash = some (initState keyK) ∧ 1 ≤ 31 ∧ 31 ≤ 31 := by decide

theorem test_witness_FinalizeCommandsComplete :
    (pending .finalize256 rawLive).busy = true ∧ (pending .finalize256 rawLive).hash = some (initState keyK) := by decide

/-- 12 buffered bytes and 32 new ones. -/
theorem test_witness_CatAppendCompletes :
    (pending (.catAppend 32) (catHello 12)).busy = true ∧
      (pending (.catAppend 32) (catHello 12)).hash = some (initState key1) ∧
      bufBytes (pending (.catAppend 32) (catHello 12)).buf (pending (.catAppend 32) (catHello 12)).cnt.toNat = some hello ∧
      32 ≤ 32 := by decide +kernel

/-- 12 buffered bytes, and none. -/
theorem test_witness_CatFinishCommandsComplete :
    (pending .catFinish64 (catHello 12)).busy = true ∧
      (pending .catFinish64 (catHello 12)).hash = some (initState key1) ∧
      bufBytes (catHello 12).buf (catHello 12).cnt.toNat = some hello ∧
      bufBytes catLive.buf catLive.cnt.toNat = some [] := by decide +kernel

/-- A completion of each shape gives a next state. -/
theorem test_witness_CompletionFollowsTheAccessMatrix :
    (nextOf (exec .catStart (pending .catStart rawErr))).isSome = true ∧
      (nextOf (exec .updatePacket (pending .updatePacket rawLive))).isSome = true ∧
      (nextOf (exec .finalize64 (pending .finalize64 rawLive))).isSome = true ∧
      (nextOf (exec (.catAppend 1) (pending (.catAppend 1) catLive))).isSome = true ∧
      (nextOf (exec .catFinish256 (pending .catFinish256 catLive))).isSome = true := by decide +kernel

/-- A step that leaves OUT, one that resets it, one that writes it. -/
theorem test_witness_OutChangesOnlyByAResult :
    (nextOf (step rawLive)).map State.out = some State.reset.out ∧
      (nextOf (step (before .powerOn { rawLive with out := keyK }))).map State.out = some State.reset.out ∧
      (nextOf (step (pending .finalize64 rawLive))).map (fun t => t.out.l0) = some 0x907A56DE22C26E53 := by decide +kernel

theorem test_witness_OperandsFrozenWhileBusy :
    (pending .updatePacket rawLive).busy = true ∧ wr 0 0x00 5 ≠ .complete ∧ wr 0 0x00 5 ≠ .powerOn ∧
      (nextOf (step (before (wr 0 0x00 5) (pending .updatePacket rawLive)))).isSome = true := by decide +kernel

theorem test_witness_NoDataCommandWhileErr :
    rawErr.busy = false ∧ rawErr.err = true ∧ (RawCommand .updatePacket ∨ CatCommand .updatePacket) ∧
      (before (wr 0 0x18 5) rawErr).agenda = wr rawErr.hhBase (8 * (3 : Fin 4).val) 5 :: [] := by
  refine ⟨by decide, by decide, .inl trivial, by decide⟩

theorem test_witness_FinalizedStateCannotBeReused :
    (pending .finalize64 rawLive).busy = true ∧ (pending .finalize64 rawLive).err = false ∧
      (pending .finalize64 rawLive).hash = some (initState keyK) ∧ (RawCommand .finalize64 ∨ CatCommand .finalize64) := by
  refine ⟨by decide, by decide, by decide, .inl trivial⟩

/-- An idle, a buffering and a busy state with the invariant, each with a next state. -/
theorem test_witness_StepKeepsInvariant :
    (State.reset.Inv ∧ (nextOf (step State.reset)).isSome = true) ∧
      ((catHello 12).Inv ∧ (nextOf (step (catHello 12))).isSome = true) ∧
      (pending (.catAppend 32) (catHello 12)).Inv ∧
      (nextOf (step (pending (.catAppend 32) (catHello 12)))).isSome = true := by decide +kernel

theorem test_witness_InvariantStepNeverStops : (pending .finalize128 rawErr).Inv := by decide +kernel

theorem test_witness_PendingCommandCompletes :
    (before (rd 0 0x48) (pending .finalize64 rawLive)).Inv ∧ (before (rd 0 0x48) (pending .finalize64 rawLive)).busy = true ∧
      .powerOn ∉ (before (rd 0 0x48) (pending .finalize64 rawLive)).agenda := by decide +kernel

/-- A FINALIZE and a CAT_FINISH command, a read of OUT0 before the turn and of OUT3 after it. -/
theorem test_witness_ResultHazardOldOrNew :
    ((pending .finalize256 rawLive).busy = true ∧ (pending .finalize256 rawLive).pend = some (encode .finalize256) ∧
      ResultOf .finalize256 (pending .finalize256 rawLive) (result256 (initState keyK)) ∧
      ({ pending .finalize256 rawLive with agenda := [rd 0 0x20, .complete, rd 0 0x38] } : State).agenda =
        rd rawLive.hhBase (0x20 + 8 * (0 : Fin 4).val) :: .complete :: rd rawLive.hhBase (0x20 + 8 * (3 : Fin 4).val) :: [] ∧
      ({ pending .finalize256 rawLive with agenda := [.complete, rd 0 0x38] } : State).agenda =
        .complete :: rd rawLive.hhBase (0x20 + 8 * (3 : Fin 4).val) :: []) ∧
    ResultOf .catFinish64 (pending .catFinish64 (catHello 12)) (result64 (finished (initState key1) hello)) := by
  refine ⟨⟨by decide, by decide, ⟨initState keyK, rfl, rfl⟩, by decide, by decide⟩, initState key1, hello, rfl,
    by decide +kernel, rfl⟩

theorem test_witness_BytesOfABlockAreItsLanes : (List.replicate 32 (0xFF : Byte)).length = 32 ∧ 7 < 8 := by decide

theorem test_witness_ZipperMergeReordersBytes :
    7 < 8 ∧ [3, 12, 2, 5, 14, 1, 15, 0, 11, 4, 10, 13, 9, 6, 8, 7][7]? = some 0 ∧
      [3, 12, 2, 5, 14, 1, 15, 0, 11, 4, 10, 13, 9, 6, 8, 7][8 + 7]? = some 7 := by decide

theorem test_witness_Rotate32ByRotatesEachHalf : (1 ≤ 1 ∧ 1 ≤ 31) ∧ (1 ≤ 31 ∧ 31 ≤ 31) ∧ 31 < 32 := by decide

theorem test_witness_LengthPerturbationBindsTheCount : (1 ≤ 1 ∧ 1 ≤ 31) ∧ 1 ≤ 31 ∧ 31 ≤ 31 := by decide

/-- One remainder for each way a packet is built: short with a tail, short without, 16 and more. -/
theorem test_witness_PackRemainderPlacesEachByte :
    ∀ n ∈ [1, 4, 15, 16, 31], 1 ≤ (laneBytes keyK n).length ∧ (laneBytes keyK n).length ≤ 31 := by decide +kernel

/-- Two DIN values that agree on the first byte only. -/
theorem test_witness_UnusedDinBytesAreIgnored :
    (∀ k < 1, laneByte ⟨0xFF00, 1, 2, 3⟩ k = laneByte keyK k) ∧
      (nextOf (exec (.updateRemainder 1) (pending (.updateRemainder 1) rawLive))).isSome = true ∧
      (nextOf (exec (.catAppend 1) (pending (.catAppend 1) catLive))).isSome = true := by decide +kernel

theorem test_witness_CatAppendMovesTheCount : (⟨initState key1, (catHello 12).buf, 12⟩ : Accumulator).ok :=
  ⟨by decide, by decide +kernel⟩

theorem test_witness_CatAppendOfAConcatenation : (⟨initState key1, State.reset.buf, 0⟩ : Accumulator).ok :=
  ⟨by decide, by decide +kernel⟩

theorem test_witness_OneShotSequenceComputesTheHash :
    ({ rawErr with agenda := oneShot 0 (fun j => j) .w128 hello keyK } : State).busy = false ∧
      ({ rawErr with agenda := oneShot 0 (fun j => j) .w128 hello keyK } : State).agenda =
        oneShot rawErr.hhBase (fun j => j) .w128 hello keyK := by decide +kernel

theorem test_witness_StreamedSequenceComputesTheHash :
    ({ rawErr with agenda := streamed 0 (fun j => j) .w64 [hello, [], laneBytes keyK 32] key1 } : State).busy = false ∧
      (∀ b ∈ [hello, [], laneBytes keyK 32], b.length ≤ 32) ∧
      ({ rawErr with agenda := streamed 0 (fun j => j) .w64 [hello, [], laneBytes keyK 32] key1 } : State).agenda =
        streamed rawErr.hhBase (fun j => j) .w64 [hello, [], laneBytes keyK 32] key1 := by decide +kernel

end Sys2Proof.Tests
end

