-- ==== Sys2Proof/Proofs/ResetState.lean ====
section
/-! PROOF. The state after power-on reset (R38): what a reader of BUF, of a 4-lane register and of STATUS finds there. -/

namespace Sys2Proof.Machine

theorem Lanes.get_zero (i : Fin 4) : (⟨0, 0, 0, 0⟩ : Lanes).get i = 0 := by
  fin_cases i <;> rfl

/-- No byte of BUF has a value after reset, counted or not. -/
theorem State.reset_buf_getElem (k : Fin 32) : State.reset.buf[k] = none :=
  Vector.getElem_replicate k.isLt

@[simp] theorem statusWord_reset : statusWord State.reset = 0 := by decide

end Sys2Proof.Machine

namespace Sys2Proof.Proofs
open Sys2Proof.Machine

/-- Settles O16: the scalar fields hold by the definition of the reset state; BUF, DIN, OUT and STATUS by the readers'
lemmas. -/
theorem powerOnValuesAtReset : Obligations.PowerOnValuesAtReset :=
  ⟨rfl, State.reset_buf_getElem, rfl, rfl, rfl, rfl, rfl, rfl, rfl,
    fun i => ⟨Lanes.get_zero i, Lanes.get_zero i⟩, statusWord_reset⟩

end Sys2Proof.Proofs
end

