-- ==== Sys2Proof/Proofs/WindowAccess.lean ====
section
/-! PROOF. Valid accesses to the register window (R33, R53 to R55): what a 64-bit read and a 64-bit write at each aligned
offset do. The register map is turned round once, `regAt_eq_some_iff`; the rest is a case split on the register. -/

namespace Sys2Proof.Machine

/-- The offset of a register, the register map read the other way (R33). -/
def Reg.offset : Reg → Nat
  | .din i => 8 * i.val
  | .out i => 0x20 + 8 * i.val
  | .cmd => 0x40
  | .status => 0x48

theorem regAt_eq_some_iff {off : Nat} {r : Reg} : regAt off = some r ↔ off = r.offset := by
  constructor
  · intro h
    have honce : ∀ p ∈ registerMap, p.1 = p.2.offset := by decide
    obtain ⟨before, after, hsplit, -⟩ := List.lookup_eq_some_iff.1 h
    exact honce (off, r) (by simp [hsplit])
  · rintro rfl
    cases r with
    | din i => fin_cases i <;> rfl
    | out i => fin_cases i <;> rfl
    | cmd => rfl
    | status => rfl

/-- Every 64-bit access at an aligned offset of the window is valid (R53). -/
theorem validAccess_of_aligned {off : Nat} (ho : off < 0x100) (ha : off % 8 = 0) :
    validAccess off Config.accessBytes = true := by
  have hwidth : Config.accessBytes = 8 := rfl
  rw [validAccess_iff]
  omega

/-! ## Reads -/

theorem windowValue_offset (s : State) (r : Reg) : windowValue s r.offset = readReg s r := by
  cases r with
  | din i => fin_cases i <;> rfl
  | out i => fin_cases i <;> rfl
  | cmd => rfl
  | status => rfl

theorem windowValue_of_unmapped (s : State) {off : Nat} (h : regAt off = none) : windowValue s off = 0 := by
  have hne := List.lookup_eq_none_iff.1 h
  simp only [registerMap, List.forall_mem_cons, bne_iff_ne] at hne
  simp [windowValue, hne]

/-- A valid read of the window, mapped or not (R54). -/
theorem readValue_of_valid (s : State) {off width : Nat} (h : validAccess off width = true) :
    readValue s off width = windowValue s off := by
  rw [readValue, if_pos h]
  cases hr : regAt off with
  | none => exact (windowValue_of_unmapped s hr).symm
  | some r =>
    obtain rfl := regAt_eq_some_iff.1 hr
    exact (windowValue_offset s r).symm

/-- The step of a valid read: only the list of values read changes (R54). -/
theorem step_rd {s : State} {off : Nat} {rest : List Event} (ho : off < 0x100) (ha : off % 8 = 0)
    (h : s.agenda = rd s.hhBase off :: rest) :
    step s = .next ((s.setAgenda rest).logRead (windowValue s off)) := by
  rw [step_read ho h, onRead, readValue_of_valid _ (validAccess_of_aligned ho ha)]
  rfl

/-! ## Writes -/

theorem onDinWrite_busy (i : Fin 4) (w : Word) {s : State} (h : s.busy = true) :
    onDinWrite i w s = .next (s.record .busyWrite) := by simp [onDinWrite, h]

theorem onDinWrite_idle (i : Fin 4) (w : Word) {s : State} (h : s.busy = false) :
    onDinWrite i w s = .next (s.setDin i w) := by simp [onDinWrite, h]

/-- A write to anything but DIN and CMD is refused, whatever its width (R53, R55). -/
theorem onWrite_refused {off : Nat} (width : Nat) (w : Word) (s : State) (hdin : 0x20 ≤ off) (hcmd : off ≠ 0x40) :
    onWrite off width w s = .next (s.record .busAccess) := by
  unfold onWrite
  split
  · split
    case h_1 i hr =>
      have hoff : off = 8 * i.val := regAt_eq_some_iff.1 hr
      omega
    case h_2 hr => exact absurd (regAt_eq_some_iff.1 hr) hcmd
    all_goals rfl
  · rfl

/-- The step of a valid write to DINi (R55). -/
theorem step_wr_din {s : State} (i : Fin 4) {v : Word} {rest : List Event}
    (h : s.agenda = wr s.hhBase (8 * i.val) v :: rest) : step s = onDinWrite i v (s.setAgenda rest) := by
  have hreg : regAt (8 * i.val) = some (.din i) := regAt_eq_some_iff.2 rfl
  have hvalid : validAccess (8 * i.val) Config.accessBytes = true := validAccess_of_aligned (by omega) (by omega)
  rw [step_write (by omega) h, onWrite, if_pos hvalid, hreg]

/-- The step of a valid write to CMD (R203). -/
theorem step_wr_cmd {s : State} {v : Word} {rest : List Event} (h : s.agenda = wr s.hhBase cmdOffset v :: rest) :
    step s = onCmdWrite v (s.setAgenda rest) := by
  rw [step_write (by decide) h, onWrite, if_pos validAccess_cmd, regAt_cmd]

/-- While BUSY = 1 a write to DINi is refused (R208). -/
theorem step_wr_din_busy {s : State} (i : Fin 4) {v : Word} {rest : List Event} (hb : s.busy = true)
    (h : s.agenda = wr s.hhBase (8 * i.val) v :: rest) : step s = .next ((s.setAgenda rest).record .busyWrite) := by
  rw [step_wr_din i h, onDinWrite_busy i v (s := s.setAgenda rest) hb]

/-- While BUSY = 0 a write to DINi is stored, with or without an error (R55). -/
theorem step_wr_din_idle {s : State} (i : Fin 4) {v : Word} {rest : List Event} (hb : s.busy = false)
    (h : s.agenda = wr s.hhBase (8 * i.val) v :: rest) : step s = .next ((s.setAgenda rest).setDin i v) := by
  rw [step_wr_din i h, onDinWrite_idle i v (s := s.setAgenda rest) hb]

end Sys2Proof.Machine

namespace Sys2Proof.Proofs
open Sys2Proof.Machine

/-- Settles O13: a valid read logs the window's value; the second read finds the registers the first one found. -/
theorem readsReturnRegistersAndChangeNothing : Obligations.ReadsReturnRegistersAndChangeNothing := by
  intro s off rest ho ha
  refine ⟨step_rd ho ha, fun h => ?_⟩
  have hsecond := step_rd (s := (s.setAgenda (rd s.hhBase off :: rest)).logRead (windowValue s off)) ho ha rfl
  rw [runSteps_succ 1 (step_rd ho ha h), runSteps_succ 0 hsecond]
  rfl

/-- Settles O14: an aligned offset below 0x20 is that of a DIN register; past it only CMD takes a write. -/
theorem writesReachDinAndCmdOnly : Obligations.WritesReachDinAndCmdOnly := by
  rintro s _ off v rest ho ha h rfl
  refine ⟨fun hdin hb => ?_, ?_, ?_, ?_, ?_, ?_, fun hdin hcmd => ?_⟩
  · obtain ⟨i, rfl⟩ : ∃ i : Fin 4, off = 8 * i.val := ⟨⟨off / 8, by omega⟩, by simp only; omega⟩
    exact step_wr_din_busy i hb h
  · rintro rfl hb
    exact step_wr_din_idle 0 hb h
  · rintro rfl hb
    exact step_wr_din_idle 1 hb h
  · rintro rfl hb
    exact step_wr_din_idle 2 hb h
  · rintro rfl hb
    exact step_wr_din_idle 3 hb h
  · rintro rfl
    exact step_wr_cmd h
  · rw [step_write ho h, onWrite_refused _ _ _ hdin hcmd]

end Sys2Proof.Proofs
end

