-- ==== Sys2Proof/Proofs/Encoding.lean ====
section
/-! PROOF. The encoding of commands (R70 to R76): the words of the opcode map, the four illegal cases, and the refusal of a
LEN out of range. The fields are read by division once, `opcField_toNat` and the three lemmas after it; the decoder is
described once on the words the encoder gives, `decode_cmdWrite_encode`, and once on the words it rejects,
`decode_illegal_iff`. -/

namespace Sys2Proof.Laws

/-! ## The fields in numbers (R70, R71) -/

theorem opcField_toNat (w : Word) : (opcField w).toNat = w.toNat % 256 := by simp [opcField]

theorem lenField_toNat (w : Word) : (lenField w).toNat = w.toNat / 256 % 64 := by
  simp [lenField, Nat.shiftRight_eq_div_pow]

theorem rsvdField_toNat (w : Word) : (rsvdField w).toNat = w.toNat / 2 ^ 14 % 2 ^ 18 := by
  simp [rsvdField, Nat.shiftRight_eq_div_pow]

theorem highField_toNat (w : Word) : (highField w).toNat = w.toNat / 2 ^ 32 := by
  have hw : w.toNat < 2 ^ 64 := w.isLt
  simp only [highField, BitVec.extractLsb'_toNat, Nat.shiftRight_eq_div_pow]
  omega

/-- The four fields cover the write: no bit is outside them. -/
theorem toNat_eq_fields (w : Word) :
    w.toNat = (highField w).toNat * 2 ^ 32 + (rsvdField w).toNat * 2 ^ 14 + (lenField w).toNat * 256 +
      (opcField w).toNat := by
  rw [highField_toNat, rsvdField_toNat, lenField_toNat, opcField_toNat]
  omega

/-! ## The words of the opcode map -/

/-- The decoder reads the word of a well-formed command as that command (R73, R76). -/
theorem decode_cmdWrite_encode {i : Instr} (h : i.wf = true) : decode (cmdWrite (encode i)) = .command i := by
  obtain ⟨hopc, hlen, hrsvd, hhigh⟩ := EncodedFields.all i h
  unfold decode
  rw [if_neg (not_not.2 hhigh), if_neg (not_not.2 hrsvd), hopc]
  cases i with
  | updateRemainder len => exact congrArg (fun n => Decoded.command (.updateRemainder n)) hlen
  | catAppend len => exact congrArg (fun n => Decoded.command (.catAppend n)) hlen
  | _ => rw [lenField_encode]; rfl

/-- The CMD write of a well-formed command is LEN * 256 + OPC (R73). -/
theorem cmdWrite_encode {i : Instr} (h : i.wf = true) :
    cmdWrite (encode i) = BitVec.ofNat 64 (lenOf i * 256 + (opcodeOf i).toNat) := by
  obtain ⟨hopc, hlen, hrsvd, hhigh⟩ := EncodedFields.all i h
  have hnat := toNat_eq_fields (cmdWrite (encode i))
  simp only [hopc, hlen, hrsvd, hhigh, BitVec.ofNat_eq_ofNat, BitVec.toNat_zero, Nat.zero_mul, Nat.zero_add] at hnat
  rw [← hnat, BitVec.ofNat_toNat, BitVec.setWidth_eq]

/-- Every row of the opcode map, with every LEN of a LEN opcode (R73). -/
theorem decode_opcodeMapWord {i : Instr} (h : i.wf = true) :
    decode (BitVec.ofNat 64 (lenOf i * 256 + (opcodeOf i).toNat)) = .command i := by
  rw [← cmdWrite_encode h, decode_cmdWrite_encode h]

/-- A command word and the bytes of its CMD write are decoded alike (R52). -/
theorem decodeTableWord_of_decode {c : CmdWord} {i : Instr} (h : decode (cmdWrite c) = .command i) :
    decodeTableWord 32 c.toNat = some i := by
  have hwrite : tableWrite 32 c.toNat = some (cmdWrite c) := by
    have hc : c.toNat < 2 ^ 32 := c.isLt
    rw [tableWrite, Nat.mod_eq_of_lt hc, if_pos (by omega), BitVec.ofNat_toNat, cmdWrite]
  have hbytes : decodeBytes (wordBytes (cmdWrite c)) = (.command i, []) := by
    have hlength := wordBytes_length (cmdWrite c)
    rw [decodeBytes, if_neg (by omega), List.take_of_length_le (by omega), List.drop_of_length_le (by omega),
      leWord_wordBytes, h]
  simp [decodeTableWord, hwrite, hbytes]

/-! ## The illegal words (R74) -/

/-- The nine OPC values without LEN (R73). -/
def lenlessOpcs : List (BitVec 8) := lenlessOpcodes.map Prod.fst

/-- The eleven OPC values (R73). -/
def opcs : List (BitVec 8) := [0x01, 0x02, 0x03, 0x04, 0x05, 0x06, 0x11, 0x12, 0x14, 0x15, 0x16]

theorem lookup_lenlessOpcodes_eq_none_iff (o : BitVec 8) : lenlessOpcodes.lookup o = none ↔ o ∉ lenlessOpcs := by
  simp only [List.lookup_eq_none_iff, lenlessOpcs, List.mem_map, bne_iff_ne, not_exists, not_and, ne_comm, Ne]

/-- An opcode is one of the two that have a LEN or one of the nine that have none. -/
theorem mem_opcs_iff (o : BitVec 8) : o ∈ opcs ↔ o = 0x03#8 ∨ o = 0x12#8 ∨ o ∈ lenlessOpcs := by
  decide +revert

/-- Only the four cases of R74 are illegal, whatever the order the decoder tests them in. -/
theorem decode_illegal_iff (w : Word) :
    (∃ why, decode w = .illegal why) ↔
      highField w ≠ 0 ∨ rsvdField w ≠ 0 ∨ opcField w ∉ opcs ∨ (opcField w ∈ lenlessOpcs ∧ lenField w ≠ 0) := by
  have hnone := lookup_lenlessOpcodes_eq_none_iff (opcField w)
  rw [mem_opcs_iff]
  unfold decode
  split
  case isTrue hhigh => exact iff_of_true ⟨_, rfl⟩ (.inl hhigh)
  split
  case isTrue hrsvd => exact iff_of_true ⟨_, rfl⟩ (.inr (.inl hrsvd))
  rename_i hhigh hrsvd
  rw [or_iff_right hhigh, or_iff_right hrsvd]
  split
  case isTrue hopc => simp [hopc, (by decide : 0x03#8 ∉ lenlessOpcs)]
  split
  case isTrue hopc => simp [hopc, (by decide : 0x12#8 ∉ lenlessOpcs)]
  rename_i hrem happ
  rw [or_iff_right hrem, or_iff_right happ, ← hnone]
  split
  case h_1 hlook => exact iff_of_true ⟨_, rfl⟩ (.inl hlook)
  case h_2 i hlook =>
    have hmem : opcField w ∈ lenlessOpcs := not_not.1 (hnone.not.1 (by simp [hlook]))
    split
    case isTrue hlen => exact iff_of_true ⟨_, rfl⟩ (.inr ⟨hmem, hlen⟩)
    case isFalse hlen => simp [hlook, not_not.1 hlen]

/-- An OPC value is looked for among numbers as among fields. -/
theorem toNat_mod_mem_iff (w : Word) (l : List (BitVec 8)) : w.toNat % 256 ∈ l.map BitVec.toNat ↔ opcField w ∈ l := by
  rw [← opcField_toNat, List.mem_map_of_injective BitVec.toNat_injective]

/-- The cases of R74, their fields read by division. -/
theorem decode_illegal_iff_toNat (w : Word) :
    (∃ why, decode w = .illegal why) ↔
      w.toNat / 2 ^ 32 ≠ 0 ∨ w.toNat / 2 ^ 14 % 2 ^ 18 ≠ 0 ∨ w.toNat % 256 ∉ opcs.map BitVec.toNat ∨
        (w.toNat % 256 ∈ lenlessOpcs.map BitVec.toNat ∧ w.toNat / 256 % 64 ≠ 0) := by
  rw [decode_illegal_iff, toNat_mod_mem_iff, toNat_mod_mem_iff, ← highField_toNat, ← rsvdField_toNat, ← lenField_toNat]
  simp only [ne_eq, BitVec.toNat_eq, BitVec.ofNat_eq_ofNat, BitVec.toNat_zero]

end Sys2Proof.Laws

namespace Sys2Proof.Machine

/-- An idle block refuses an illegal command (R74, R203). -/
theorem onCmdWrite_illegal {w : Word} {why : Illegal} {s : State} (hb : s.busy = false) (hw : decode w = .illegal why) :
    onCmdWrite w s = .next (s.record .illegalCmd) := by simp [onCmdWrite, hb, hw]

/-! ## A LEN out of range (R75) -/

theorem lenLegal_eq_false_iff (i : Instr) : lenLegal i = false ↔ BadLen i := by
  cases i <;> simp [lenLegal, BadLen, or_iff_not_imp_left]

/-- No start command has a LEN. -/
theorem isStart_of_badLen {i : Instr} (h : BadLen i) : isStart i = false := by
  cases i with
  | updateRemainder len => rfl
  | catAppend len => rfl
  | _ => exact h.elim

/-- Where every earlier check of admission passes, a LEN out of range is what is refused (R203). -/
theorem admission_badLen {i : Instr} {s : State} (hlen : BadLen i) (he : s.err = false) (hl : s.live = true)
    (hm : s.mode = modeOf i) : admission i s = s.record .badLen := by
  simp [admission, isStart_of_badLen hlen, (lenLegal_eq_false_iff i).2 hlen, he, hl, hm]

/-- A command with a LEN out of range on an idle, error-free, live block in its mode (R75). -/
theorem exec_badLen {i : Instr} {s : State} (hlen : BadLen i) (hb : s.busy = false) (he : s.err = false)
    (hl : s.live = true) (hm : s.mode = modeOf i) : exec i s = .next { s with err := true, errcode := .badLen } := by
  rw [exec_idle i s hb, admission_badLen hlen he hl hm, State.record_of_ok s .badLen he]

end Sys2Proof.Machine

namespace Sys2Proof.Proofs
open Sys2Proof.Machine Sys2Proof.Laws

/-- Settles O4: the decoder rejects the four cases and no others; a rejected write records the error on an idle block. -/
theorem illegalEncodingsAreExactlyTheListedOnes : Obligations.IllegalEncodingsAreExactlyTheListedOnes := by
  refine ⟨decode_illegal_iff_toNat, fun s w why rest hb hw ha => ?_⟩
  rw [step_wr_cmd ha, onCmdWrite_illegal (s := s.setAgenda rest) hb hw]

/-- Settles O1: each word is that of its row's command, LEN * 256 + OPC. -/
theorem opcodeMapWordsDecode : Obligations.OpcodeMapWordsDecode :=
  ⟨decode_opcodeMapWord (i := .reset) rfl, decode_opcodeMapWord (i := .updatePacket) rfl,
    decode_opcodeMapWord (i := .finalize64) rfl, decode_opcodeMapWord (i := .finalize128) rfl,
    decode_opcodeMapWord (i := .finalize256) rfl, decode_opcodeMapWord (i := .catStart) rfl,
    decode_opcodeMapWord (i := .catFinish64) rfl, decode_opcodeMapWord (i := .catFinish128) rfl,
    decode_opcodeMapWord (i := .catFinish256) rfl,
    fun len h => decode_opcodeMapWord (i := .updateRemainder len) (decide_eq_true h),
    fun len h => decode_opcodeMapWord (i := .catAppend len) (decide_eq_true h),
    decodeTableWord_of_decode (c := 0x00000503) (decode_cmdWrite_encode (i := .updateRemainder 5) rfl),
    decodeTableWord_of_decode (c := 0x00002012) (decode_cmdWrite_encode (i := .catAppend 32) rfl)⟩

/-- Settles O5: a LEN of six bits has a word, whatever its range; admission comes to the LEN check and refuses it. -/
theorem lenOutOfRangeDecodesAndIsRefused : Obligations.LenOutOfRangeDecodesAndIsRefused := by
  constructor
  · intro len hbad hfits
    exact ⟨decode_opcodeMapWord (i := .updateRemainder len) (decide_eq_true hfits),
      fun s hb he hl hm => exec_badLen (i := .updateRemainder len) hbad hb he hl hm⟩
  · intro len hbad hfits
    exact ⟨decode_opcodeMapWord (i := .catAppend len) (decide_eq_true hfits),
      fun s hb he hl hm => exec_badLen (i := .catAppend len) hbad hb he hl hm⟩

end Sys2Proof.Proofs
end

