-- ==== Sys2Proof/Proofs/Rotation.lean ====
section
/-! PROOF. The rotation of the length perturbation (R122), bit by bit: of one half, then of the two halves of a lane. -/

namespace Sys2Proof.Machine

theorem low32_getLsbD (x : Word) {k : Nat} (hk : k < 32) : (low32 x).getLsbD k = x.getLsbD k := by
  simp [low32, hk]

theorem high32_getLsbD (x : Word) {k : Nat} (hk : k < 32) : (high32 x).getLsbD k = x.getLsbD (32 + k) := by
  simp [high32, hk]

/-- Below 32 the two shifts are the library's rotation. -/
theorem rotateHalf_eq_rotateLeft {c : Nat} (x : BitVec 32) (hc : c < 32) : rotateHalf c x = x.rotateLeft c := by
  rw [rotateHalf, BitVec.rotateLeft_def, Nat.mod_eq_of_lt hc]

/-- Bit j of a rotated half comes from c places below, round the end. -/
theorem rotateHalf_getLsbD {c j : Nat} (x : BitVec 32) (hc : c < 32) (hj : j < 32) :
    (rotateHalf c x).getLsbD j = x.getLsbD ((j + 32 - c) % 32) := by
  rw [rotateHalf_eq_rotateLeft x hc, BitVec.getLsbD_rotateLeft, Nat.mod_eq_of_lt hc]
  by_cases hwrap : j < c
  · have hsrc : (j + 32 - c) % 32 = 32 - c + j := by omega
    simp [hwrap, hsrc]
  · have hsrc : (j + 32 - c) % 32 = j - c := by omega
    simp [hwrap, hj, hsrc]

theorem low32_rotate32By (c : Nat) (x : Word) : low32 (rotate32By c x) = rotateHalf c (low32 x) :=
  BitVec.extractLsb'_append_eq_right

theorem high32_rotate32By (c : Nat) (x : Word) : high32 (rotate32By c x) = rotateHalf c (high32 x) :=
  BitVec.extractLsb'_append_eq_left

end Sys2Proof.Machine

namespace Sys2Proof.Proofs
open Sys2Proof.Machine

/-- Settles O43: each half of the result is the rotated half of x, and a rotated half takes its bits from that half only. -/
theorem rotate32ByRotatesEachHalf : Obligations.Rotate32ByRotatesEachHalf := by
  intro c x _ hc j hj
  have hc32 : c < 32 := Nat.lt_succ_of_le hc
  have hsrc : (j + 32 - c) % 32 < 32 := Nat.mod_lt _ (by decide)
  constructor
  · rw [← low32_getLsbD _ hj, low32_rotate32By, rotateHalf_getLsbD _ hc32 hj, low32_getLsbD _ hsrc]
  · rw [← high32_getLsbD _ hj, high32_rotate32By, rotateHalf_getLsbD _ hc32 hj, high32_getLsbD _ hsrc]

end Sys2Proof.Proofs
end

