-- ==== Sys2Proof/Proofs/Exceptions.lean ====
section
/-! PROOF. Admission and the error record (R200 to R208): what each check of a CMD write answers, what a step runs, and which
events clear an error. The decoder is inverted once, `decode_command_fields`; admission has one equation for each of its
answers; a host write is sorted by the register it reaches once, `onHostWrite_cases`. -/

namespace Sys2Proof.Laws

/-! ## What a decoded write says (R71, R76) -/

/-- Each row of the list of opcodes without LEN is its command's (R73). -/
theorem opcodeOf_of_lookup {o : BitVec 8} {i : Instr} (h : lenlessOpcodes.lookup o = some i) :
    o = opcodeOf i ∧ lenOf i = 0 := by
  have hrows : ∀ p ∈ lenlessOpcodes, p.1 = opcodeOf p.2 ∧ lenOf p.2 = 0 := by decide
  obtain ⟨before, after, hsplit, -⟩ := List.lookup_eq_some_iff.1 h
  exact hrows (o, i) (by simp [hsplit])

/-- The four fields of a write that decodes to i are those of i. -/
theorem decode_command_fields {w : Word} {i : Instr} (h : decode w = .command i) :
    highField w = 0 ∧ rsvdField w = 0 ∧ opcField w = opcodeOf i ∧ (lenField w).toNat = lenOf i := by
  unfold decode at h
  split at h
  · cases h
  rename_i hhigh
  split at h
  · cases h
  rename_i hrsvd
  refine ⟨not_not.1 hhigh, not_not.1 hrsvd, ?_⟩
  split at h
  case isTrue hopc => cases h; exact ⟨hopc, rfl⟩
  split at h
  case isTrue hopc => cases h; exact ⟨hopc, rfl⟩
  split at h
  · cases h
  rename_i j hlook
  split at h
  · cases h
  rename_i hlen
  cases h
  obtain ⟨hopc, hzero⟩ := opcodeOf_of_lookup hlook
  exact ⟨hopc, by rw [not_not.1 hlen, hzero]; rfl⟩

/-- Only a count that fits LEN can be decoded (R72). -/
theorem wf_of_decode {w : Word} {i : Instr} (h : decode w = .command i) : i.wf = true := by
  obtain ⟨-, -, -, hlen⟩ := decode_command_fields h
  have hfits : lenOf i < 64 := hlen ▸ (lenField w).isLt
  cases i with
  | updateRemainder len => exact decide_eq_true hfits
  | catAppend len => exact decide_eq_true hfits
  | _ => rfl

/-- No bit of a write that decodes is lost: it is the command's word with zeros above (R70, R71). -/
theorem eq_cmdWrite_encode_of_decode {w : Word} {i : Instr} (h : decode w = .command i) : w = cmdWrite (encode i) := by
  obtain ⟨hhigh, hrsvd, hopc, hlen⟩ := decode_command_fields h
  obtain ⟨hopc', hlen', hrsvd', hhigh'⟩ := EncodedFields.all i (wf_of_decode h)
  apply BitVec.eq_of_toNat_eq
  rw [toNat_eq_fields w, toNat_eq_fields (cmdWrite (encode i)), hhigh, hrsvd, hopc, hlen, hhigh', hrsvd', hopc', hlen']

/-- The command word of a write that decodes is its low half (R70). -/
theorem encode_of_decode {w : Word} {i : Instr} (h : decode w = .command i) : encode i = w.setWidth 32 := by
  rw [eq_cmdWrite_encode_of_decode h, cmdWrite, BitVec.setWidth_setWidth_of_le _ (by decide), BitVec.setWidth_eq]

/-- The bytes of a write are decoded as the write, and none is left (R52). -/
theorem decodeBytes_wordBytes (w : Word) : decodeBytes (wordBytes w) = (decode w, []) := by
  have hlength := wordBytes_length w
  rw [decodeBytes, if_neg (by omega), List.take_of_length_le (by omega), List.drop_of_length_le (by omega),
    leWord_wordBytes]

/-- A table word is read through the CMD write it stands for. -/
theorem decodeTableWord_eq_some {nbits w : Nat} {i : Instr} (h : decodeTableWord nbits w = some i) :
    ∃ v, tableWrite nbits w = some v ∧ decode v = .command i := by
  unfold decodeTableWord at h
  split at h
  · cases h
  rename_i v hv
  rw [decodeBytes_wordBytes] at h
  refine ⟨v, hv, ?_⟩
  cases hd : decode v with
  | illegal why => simp [hd] at h
  | command j => simpa [hd] using h

end Sys2Proof.Laws

namespace Sys2Proof.Machine
open Sys2Proof.Laws

/-! ## Admission, an equation for each answer (R203); `admission_badLen` stands with the encodings -/

theorem isStart_iff (i : Instr) : isStart i = true ↔ i = .reset ∨ i = .catStart := by
  cases i <;> simp [isStart]

/-- The RAW data commands are the commands of the RAW mode that start nothing. -/
theorem rawCommand_iff (i : Instr) : RawCommand i ↔ isStart i = false ∧ modeOf i = .raw := by
  cases i <;> simp [RawCommand, isStart, modeOf]

/-- The CAT data commands are the commands of the CAT mode that start nothing. -/
theorem catCommand_iff (i : Instr) : CatCommand i ↔ isStart i = false ∧ modeOf i = .cat := by
  cases i <;> simp [CatCommand, isStart, modeOf]

theorem admission_start {i : Instr} (s : State) (hi : isStart i = true) :
    admission i s = s.clearError.accept (encode i) := by simp [admission, hi]

theorem admission_dropped {i : Instr} {s : State} (hi : isStart i = false) (he : s.err = true) : admission i s = s := by
  simp [admission, hi, he]

theorem admission_notLive {i : Instr} {s : State} (hi : isStart i = false) (he : s.err = false) (hl : s.live = false) :
    admission i s = s.record .notLive := by simp [admission, hi, he, hl]

theorem admission_wrongMode {i : Instr} {s : State} (hi : isStart i = false) (he : s.err = false) (hl : s.live = true)
    (hm : modeOf i ≠ s.mode) : admission i s = s.record .wrongMode := by simp [admission, hi, he, hl, hm]

theorem admission_accepted {i : Instr} {s : State} (hi : isStart i = false) (he : s.err = false) (hl : s.live = true)
    (hm : modeOf i = s.mode) (hlen : ¬ BadLen i) : admission i s = s.accept (encode i) := by
  have hlegal : lenLegal i = true := by rwa [← Bool.not_eq_false, lenLegal_eq_false_iff]
  simp [admission, hi, he, hl, hm, hlegal]

/-! ## A CMD write and its step -/

theorem onCmdWrite_busy (w : Word) {s : State} (hb : s.busy = true) : onCmdWrite w s = .next (s.record .busyWrite) := by
  simp [onCmdWrite, hb]

/-- An idle block runs the command a write decodes to. -/
theorem onCmdWrite_command {w : Word} {i : Instr} {s : State} (hb : s.busy = false) (hw : decode w = .command i) :
    onCmdWrite w s = exec i s := by simp [onCmdWrite, hb, hw]

/-- While BUSY = 1 a CMD write is refused (R208). -/
theorem step_wr_cmd_busy {s : State} {w : Word} {rest : List Event} (hb : s.busy = true)
    (h : s.agenda = wr s.hhBase cmdOffset w :: rest) : step s = .next ((s.setAgenda rest).record .busyWrite) := by
  rw [step_wr_cmd h, onCmdWrite_busy w (s := s.setAgenda rest) hb]

/-- While BUSY = 0 the step of a CMD write runs the command it decodes to. -/
theorem step_wr_cmd_command {s : State} {w : Word} {i : Instr} {rest : List Event} (hb : s.busy = false)
    (hw : decode w = .command i) (h : s.agenda = wr s.hhBase cmdOffset w :: rest) :
    step s = exec i (s.setAgenda rest) := by
  rw [step_wr_cmd h, onCmdWrite_command (s := s.setAgenda rest) hb hw]

/-- While BUSY = 0 the step of a CMD write admits the command it decodes to (R203). -/
theorem step_wr_cmd_admission {s : State} {w : Word} {i : Instr} {rest : List Event} (hb : s.busy = false)
    (hw : decode w = .command i) (h : s.agenda = wr s.hhBase cmdOffset w :: rest) :
    step s = .next (admission i (s.setAgenda rest)) := by
  rw [step_wr_cmd_command hb hw h, exec_idle i (s.setAgenda rest) hb]

/-- A completion turn is a step of the completion engine. -/
theorem step_complete {s : State} {rest : List Event} (h : s.agenda = .complete :: rest) :
    step s = onComplete (s.setAgenda rest) := step_cons h

/-- The state a CMD write was placed in runs the command it decodes to (log entry 5). -/
theorem step_submitNext {s : State} {w : Word} {i : Instr} (hw : decode w = .command i) :
    step (submitNext s w) = exec i { s with busy := false } :=
  step_wr_cmd_command (s := submitNext s w) rfl hw rfl

/-! ## Which events can clear an error (R206) -/

/-- A write in the window reaches CMD, reaches a DIN register, or is refused (R55). -/
theorem onWrite_cases (off width : Nat) (w : Word) (s : State) :
    (off = cmdOffset ∧ width = Config.accessBytes ∧ onWrite off width w s = onCmdWrite w s) ∨
    (∃ i : Fin 4, off = 8 * i.val ∧ width = Config.accessBytes ∧ onWrite off width w s = onDinWrite i w s) ∨
    onWrite off width w s = .next (s.record .busAccess) := by
  unfold onWrite
  split
  case isTrue hvalid =>
    obtain ⟨hwidth, -, -⟩ := (validAccess_iff off width).1 hvalid
    split
    case h_1 i hr => exact .inr (.inl ⟨i, regAt_eq_some_iff.1 hr, hwidth, rfl⟩)
    case h_2 hr => exact .inl ⟨regAt_eq_some_iff.1 hr, hwidth, rfl⟩
    all_goals exact .inr (.inr rfl)
  case isFalse => exact .inr (.inr rfl)

/-- A host write is a `wr` to CMD, a `wr` to a DIN register, refused, or outside the window (R53, R55, R57). -/
theorem onHostWrite_cases (addr width : Nat) (w : Word) (s : State) :
    (Event.write addr width w = wr s.hhBase cmdOffset w ∧ onHostWrite addr width w s = onCmdWrite w s) ∨
    (∃ i : Fin 4, Event.write addr width w = wr s.hhBase (8 * i.val) w ∧
      onHostWrite addr width w s = onDinWrite i w s) ∨
    onHostWrite addr width w s = .next (s.record .busAccess) ∨ onHostWrite addr width w s = .next s := by
  unfold onHostWrite
  split
  case h_1 off hoff =>
    obtain ⟨rfl, -, -⟩ := windowOffset_some hoff
    obtain ⟨rfl, rfl, h⟩ | ⟨i, rfl, rfl, h⟩ | h := onWrite_cases off width w s
    · exact .inl ⟨rfl, h⟩
    · exact .inr (.inl ⟨i, rfl, h⟩)
    · exact .inr (.inr (.inl h))
  case h_2 =>
    split
    · exact .inr (.inr (.inl rfl))
    · exact .inr (.inr (.inr rfl))

/-- From s to t ERR and ERRCODE stay as they are. -/
abbrev State.KeepsError (s t : State) : Prop := t.err = s.err ∧ t.errcode = s.errcode

/-- With ERR = 1 a refusal keeps the error there is (R202). -/
theorem State.keepsError_record {s : State} (he : s.err = true) (code : ErrCode) : s.KeepsError (s.record code) := by
  rw [record_of_err s code he]
  exact ⟨rfl, rfl⟩

/-- No completion touches ERR or ERRCODE (R204). -/
theorem Completed.keepsError {i : Instr} {s t : State} (h : Completed i s t) : s.KeepsError t := by
  cases h <;> exact ⟨rfl, rfl⟩

theorem onComplete_keepsError {s t : State} (h : onComplete s = .next t) : s.KeepsError t := by
  unfold onComplete at h
  split at h
  case isFalse => cases h; exact ⟨rfl, rfl⟩
  case isTrue hb =>
    split at h
    · cases h
    split at h
    · cases h
    exact (exec_busy_completed hb h).keepsError

theorem onHostRead_keepsError {addr width : Nat} {s t : State} (h : onHostRead addr width s = .next t) :
    s.KeepsError t := by
  unfold onHostRead at h
  split at h
  · cases h; exact ⟨rfl, rfl⟩
  · split at h <;> cases h <;> exact ⟨rfl, rfl⟩

theorem onDinWrite_keepsError {i : Fin 4} {w : Word} {s t : State} (he : s.err = true)
    (h : onDinWrite i w s = .next t) : s.KeepsError t := by
  unfold onDinWrite at h
  split at h
  · cases h; exact State.keepsError_record he _
  · cases h; exact ⟨rfl, rfl⟩

/-- With ERR = 1 a CMD write keeps the error, or is the acceptance of a start, which clears it (R206). -/
theorem onCmdWrite_error_cases {w : Word} {s t : State} (he : s.err = true) (h : onCmdWrite w s = .next t) :
    s.KeepsError t ∨
      (t.err = false ∧ t.errcode = .noError ∧ s.busy = false ∧ ∃ i, decode w = .command i ∧ isStart i = true) := by
  cases hb : s.busy with
  | true =>
    rw [onCmdWrite_busy w hb] at h
    cases h; exact .inl (State.keepsError_record he _)
  | false =>
    cases hw : decode w with
    | illegal why =>
      rw [onCmdWrite_illegal hb hw] at h
      cases h; exact .inl (State.keepsError_record he _)
    | command i =>
      rw [onCmdWrite_command hb hw, exec_idle i s hb] at h
      cases h
      cases hi : isStart i with
      | true =>
        rw [admission_start s hi]
        exact .inr ⟨rfl, rfl, rfl, i, rfl, hi⟩
      | false =>
        rw [admission_dropped hi he]
        exact .inl ⟨rfl, rfl⟩

/-- With ERR = 1 a host write keeps the error, or is a `wr` of a start to CMD of an idle block (R206). -/
theorem onHostWrite_error_cases {addr width : Nat} {w : Word} {s t : State} (he : s.err = true)
    (h : onHostWrite addr width w s = .next t) :
    s.KeepsError t ∨
      (t.err = false ∧ t.errcode = .noError ∧ Event.write addr width w = wr s.hhBase cmdOffset w ∧ s.busy = false ∧
        ∃ i, decode w = .command i ∧ isStart i = true) := by
  obtain ⟨hcmd, heq⟩ | ⟨i, -, heq⟩ | heq | heq := onHostWrite_cases addr width w s
  · obtain hkeeps | ⟨herr, hcode, hb, hstart⟩ := onCmdWrite_error_cases he (heq ▸ h)
    · exact .inl hkeeps
    · exact .inr ⟨herr, hcode, hcmd, hb, hstart⟩
  · exact .inl (onDinWrite_keepsError he (heq ▸ h))
  · cases heq ▸ h; exact .inl (State.keepsError_record he _)
  · cases heq ▸ h; exact .inl ⟨rfl, rfl⟩

/-! ## The fields of STATUS (R30) -/

/-- Every bit of STATUS, field by field from CNT down. -/
theorem statusWord_getLsbD (s : State) (k : Nat) :
    (statusWord s).getLsbD k =
      if 8 ≤ k then s.cnt.getLsbD (k - 8)
      else if 4 ≤ k then s.errcode.bits.getLsbD (k - 4)
      else if 3 ≤ k then (BitVec.ofBool s.err).getLsbD (k - 3)
      else if 2 ≤ k then (BitVec.ofBool s.mode.bit).getLsbD (k - 2)
      else if 1 ≤ k then (BitVec.ofBool s.live).getLsbD (k - 1)
      else (BitVec.ofBool s.busy).getLsbD k := by
  have hfields : (statusWord s).getLsbD k =
      (0#51 ++ s.cnt ++ s.errcode.bits ++ BitVec.ofBool s.err ++ BitVec.ofBool s.mode.bit ++ BitVec.ofBool s.live ++
        BitVec.ofBool s.busy : BitVec (51 + 5 + 4 + 1 + 1 + 1 + 1)).getLsbD k := rfl
  rw [hfields]
  simp only [BitVec.getLsbD_append, BitVec.getLsbD_zero]
  grind

theorem statusWord_busy (s : State) : (statusWord s).getLsbD 0 = s.busy := by
  rw [statusWord_getLsbD]; simp

theorem statusWord_live (s : State) : (statusWord s).getLsbD 1 = s.live := by
  rw [statusWord_getLsbD]; simp

theorem statusWord_mode (s : State) : (statusWord s).getLsbD 2 = true ↔ s.mode = .cat := by
  rw [statusWord_getLsbD]
  cases s.mode <;> simp [Mode.bit]

theorem statusWord_cnt (s : State) : (statusWord s).extractLsb' 8 5 = s.cnt := by
  apply BitVec.eq_of_getLsbD_eq
  intro k hk
  rw [BitVec.getLsbD_extractLsb', statusWord_getLsbD]
  simp [hk]

end Sys2Proof.Machine

namespace Sys2Proof.Proofs
open Sys2Proof.Machine Sys2Proof.Laws

/-- Settles O8. -/
theorem firstErrorIsKept : Obligations.FirstErrorIsKept :=
  fun s code => ⟨s.record_of_ok code, s.record_of_err code⟩

/-- Settles O7: BUSY, then the decoder, then admission, whose answers are its equations one by one. -/
theorem admissionFollowsItsOrder : Obligations.AdmissionFollowsItsOrder := by
  rintro s _ w rest ha rfl
  refine ⟨fun hb => step_wr_cmd_busy hb ha, fun hb => ⟨fun why hw => ?_, fun i hw => ?_⟩⟩
  · rw [step_wr_cmd ha, onCmdWrite_illegal (s := s.setAgenda rest) hb hw]
  rw [step_wr_cmd_admission hb hw ha, ← encode_of_decode hw, rawCommand_iff, catCommand_iff]
  constructor
  · intro hi
    rw [admission_start _ ((isStart_iff i).2 hi)]
    rfl
  intro hdata
  have hi : isStart i = false := hdata.elim And.left And.left
  refine ⟨fun he => ?_, fun he => ⟨fun hl => ?_, fun hl => ⟨fun hm => ?_, fun hm => ⟨fun hlen => ?_, fun hlen => ?_⟩⟩⟩⟩
  · rw [admission_dropped hi (s := s.setAgenda rest) he]
  · rw [admission_notLive hi (s := s.setAgenda rest) he hl]
  · have hne : modeOf i ≠ s.mode := by
      obtain ⟨⟨-, hmode⟩, hs⟩ | ⟨⟨-, hmode⟩, hs⟩ := hm <;> simp [hmode, hs]
    rw [admission_wrongMode hi (s := s.setAgenda rest) he hl hne]
  all_goals
    have hmode : s.mode = modeOf i := by
      obtain ⟨⟨-, hmode⟩, hs⟩ | ⟨⟨-, hmode⟩, hs⟩ := hm <;> rw [hmode, hs]
  · rw [admission_badLen hlen (s := s.setAgenda rest) he hl hmode]
  · rw [admission_accepted hi (s := s.setAgenda rest) he hl hmode.symm hlen]
    rfl

/-- Settles O9: a case for each event; of the four only a write and power-on can clear ERR. -/
theorem errorsClearOnlyByAStartOrPowerOn : Obligations.ErrorsClearOnlyByAStartOrPowerOn := by
  intro s t h he
  have hkept : s.KeepsError t → t.err = true ∧ t.errcode = s.errcode := fun ⟨herr, hcode⟩ => ⟨herr.trans he, hcode⟩
  cases ha : s.agenda with
  | nil => exact .inl (hkept (onComplete_keepsError (step_nil ha ▸ h)))
  | cons e rest =>
    rw [step_cons ha] at h
    cases e with
    | write addr width w =>
      obtain hkeeps | ⟨herr, hcode, hcmd, hb, i, hw, hi⟩ := onHostWrite_error_cases (s := s.setAgenda rest) he h
      · exact .inl (hkept hkeeps)
      · exact .inr ⟨herr, hcode, .inr ⟨w, i, rest, congrArg (· :: rest) hcmd, hb, hw, (isStart_iff i).1 hi⟩⟩
    | read addr width => exact .inl (hkept (onHostRead_keepsError (s := s.setAgenda rest) h))
    | complete => exact .inl (hkept (onComplete_keepsError (s := s.setAgenda rest) h))
    | powerOn =>
      cases h
      exact .inr ⟨rfl, rfl, .inl ⟨rest, rfl⟩⟩

/-- Settles O6: the CMD write, the completion turn and the empty agenda, each by its step lemma. -/
theorem stepRunsTheDecodedCommand : Obligations.StepRunsTheDecodedCommand := by
  refine ⟨fun s w i rest hb hw ha => step_wr_cmd_command hb hw ha, fun s c i rest hb hp hd ha => ?_,
    fun s c i hb hp hd ha => ?_, fun s nbits w i htable => ?_, fun s rest hb ha => ?_, fun s hb ha => ?_⟩
  · rw [step_complete ha, onComplete_busy (s := s.setAgenda rest) hb hp hd]
  · rw [step_nil ha, onComplete_busy hb hp hd]
  · obtain ⟨v, hv, hw⟩ := decodeTableWord_eq_some htable
    rw [State.withFetchWord, hv]
    exact step_submitNext hw
  · rw [step_complete ha, onComplete_idle (s := s.setAgenda rest) hb]
  · rw [step_nil ha, onComplete_idle hb]

/-- Settles O11: the writes by the busy case of DIN and of CMD, the reads by the value of the window. -/
theorem writesWhileBusyAreRefused : Obligations.WritesWhileBusyAreRefused := by
  intro s rest hb
  refine ⟨?_, fun ha => ?_, fun i ha => ?_⟩
  · rintro off v (rfl | rfl | rfl | rfl | rfl) ha
    · exact step_wr_din_busy 0 hb ha
    · exact step_wr_din_busy 1 hb ha
    · exact step_wr_din_busy 2 hb ha
    · exact step_wr_din_busy 3 hb ha
    · exact step_wr_cmd_busy hb ha
  · exact ⟨statusWord s, step_rd (by decide) (by decide) ha, (statusWord_busy s).trans hb, statusWord_live s,
      statusWord_mode s, statusWord_cnt s⟩
  · have hvalue : windowValue s (0x20 + 8 * i.val) = s.out.get i := windowValue_offset s (.out i)
    rw [step_rd (by omega) (by omega) ha, hvalue]

end Sys2Proof.Proofs
end

