-- ==== Sys2Proof/Proofs/RoundTrip.lean ====
section
/-! PROOF. Encoder and decoder are inverse to each other (R70 to R76), by the two directions proved with the encodings and
with admission. -/

namespace Sys2Proof.Proofs
open Sys2Proof.Machine Sys2Proof.Laws

/-- Settles O2: the fields of a well-formed command's word are its opcode and its LEN, and the decoder inverts them; the
bytes of the write are read back as the write. -/
theorem decodeOfEncodeIsTheCommand : Obligations.DecodeOfEncodeIsTheCommand := fun _ hwf =>
  have hdecode := decode_cmdWrite_encode hwf
  ⟨hdecode, decodeTableWord_of_decode hdecode⟩

/-- Settles O3: a write that decodes has the four fields of its command, and the fields are all of the write. -/
theorem encodeOfDecodeIsTheWrite : Obligations.EncodeOfDecodeIsTheWrite := fun _ _ hdecode =>
  ⟨wf_of_decode hdecode, eq_cmdWrite_encode_of_decode hdecode⟩

end Sys2Proof.Proofs
end

