-- ==== Sys2Proof/Proofs/Chunking.lean ====
section
/-! PROOF. CatAppend as a function of the whole string appended so far (R171 to R173, R178). An accumulator `Holds` a string
when it is what absorbing that string's whole blocks and buffering the rest gives; CatAppend of b takes an accumulator that
holds ys to the one that holds ys ++ b, which is all that the statements on chunks need. -/

namespace Sys2Proof.Machine

/-- The bytes of a string after its whole 32-byte blocks. -/
def tailOf (ys : List Byte) : List Byte := ys.drop (32 * (ys.length / 32))

@[simp] theorem tailOf_length (ys : List Byte) : (tailOf ys).length = ys.length % 32 := by
  rw [tailOf, List.length_drop]
  omega

theorem tailOf_of_short {ys : List Byte} (h : ys.length < 32) : tailOf ys = ys := by
  rw [tailOf, Nat.div_eq_of_lt h]
  rfl

/-- The lanes after the whole blocks of a string. -/
def absorbed (h : HashState) (ys : List Byte) : HashState := absorbBlocks (ys.length / 32) h ys

theorem absorbed_of_short (h : HashState) {ys : List Byte} (hy : ys.length < 32) : absorbed h ys = h := by
  rw [absorbed, Nat.div_eq_of_lt hy]
  rfl

/-- The whole blocks of ys ++ b are those of ys, then those of what is left of ys with b after it. -/
theorem length_div_append (ys b : List Byte) :
    (ys ++ b).length / 32 = ys.length / 32 + (tailOf ys ++ b).length / 32 := by
  rw [List.length_append, List.length_append, tailOf_length]
  omega

theorem drop_blocks_append (ys b : List Byte) : (ys ++ b).drop (32 * (ys.length / 32)) = tailOf ys ++ b :=
  List.drop_append_of_le_length (by omega)

theorem tailOf_append (ys b : List Byte) : tailOf (tailOf ys ++ b) = tailOf (ys ++ b) := by
  rw [tailOf, ← drop_blocks_append, List.drop_drop, ← Nat.mul_add, drop_blocks_append, ← length_div_append]
  rfl

theorem absorbed_append (h : HashState) (ys b : List Byte) :
    absorbed (absorbed h ys) (tailOf ys ++ b) = absorbed h (ys ++ b) := by
  unfold absorbed
  rw [length_div_append ys b, absorbBlocks_add, absorbBlocks_append _ h ys b (by omega), drop_blocks_append]

/-- The accumulator has absorbed the whole blocks of ys from the lanes h and buffers the bytes after them. -/
structure Accumulator.Holds (a : Accumulator) (h : HashState) (ys : List Byte) : Prop where
  lanes : a.h = absorbed h ys
  count : a.c = ys.length % 32
  bytes : bufBytes a.buf a.c = some (tailOf ys)

/-- The accumulator holds ys, and no cell of BUF at the count or beyond has a value (R24). -/
structure Accumulator.HoldsOnly (a : Accumulator) (h : HashState) (ys : List Byte) : Prop where
  lanes : a.h = absorbed h ys
  count : a.c = ys.length % 32
  cells : a.buf.toList = (tailOf ys).map some ++ List.replicate (32 - ys.length % 32) none

theorem Accumulator.HoldsOnly.holds {a : Accumulator} {h : HashState} {ys : List Byte} (ha : a.HoldsOnly h ys) :
    a.Holds h ys where
  lanes := ha.lanes
  count := ha.count
  bytes := by rw [ha.count, ← tailOf_length]; exact bufBytes_of_toList ha.cells

theorem Accumulator.HoldsOnly.cell_eq_none {a : Accumulator} {h : HashState} {ys : List Byte} (ha : a.HoldsOnly h ys)
    (k : Fin 32) (hk : a.c ≤ k.val) : a.buf[k] = none :=
  getElem_of_toList ha.cells k (by rw [tailOf_length, ← ha.count]; exact hk)

/-- The string determines the accumulator. -/
theorem Accumulator.HoldsOnly.unique {a a' : Accumulator} {h : HashState} {ys : List Byte} (ha : a.HoldsOnly h ys)
    (ha' : a'.HoldsOnly h ys) : a = a' := by
  have hlanes : a.h = a'.h := ha.lanes.trans ha'.lanes.symm
  have hbuf : a.buf = a'.buf := Vector.toList_inj.1 (ha.cells.trans ha'.cells.symm)
  have hcount : a.c = a'.c := ha.count.trans ha'.count.symm
  cases a
  cases a'
  simp_all

theorem Accumulator.Holds.ok {a : Accumulator} {h : HashState} {ys : List Byte} (ha : a.Holds h ys) : a.ok := by
  refine ⟨?_, by rw [ha.bytes]; rfl⟩
  rw [ha.count]
  omega

/-- The count fits the five bits of CNT (R23, R171). -/
theorem Accumulator.Holds.toNat_ofNat_count {a : Accumulator} {h : HashState} {ys : List Byte} (ha : a.Holds h ys) :
    (BitVec.ofNat 5 a.c).toNat = a.c :=
  have ⟨hcount, _⟩ := ha.ok
  (BitVec.toNat_ofNat ..).trans (Nat.mod_eq_of_lt hcount)

/-- A well-formed accumulator holds the bytes it buffers. -/
theorem Accumulator.holds_of_bufBytes {a : Accumulator} {xs : List Byte} (hc : a.c < 32)
    (hx : bufBytes a.buf a.c = some xs) : a.Holds a.h xs := by
  have hlen : xs.length = a.c := bufBytes_length (by omega) hx
  exact ⟨(absorbed_of_short a.h (by omega)).symm, by omega, by rw [tailOf_of_short (by omega), hx]⟩

/-- CatAppend appends to the string held (R171). -/
theorem Accumulator.Holds.catAppend {a : Accumulator} {h : HashState} {ys : List Byte} (ha : a.Holds h ys)
    (b : List Byte) : ∃ a', catAppend a b = some a' ∧ a'.HoldsOnly h (ys ++ b) := by
  obtain ⟨hcount, -⟩ := ha.ok
  obtain ⟨a', happend, hlanes, hcount', hcells⟩ := catAppend_spec a (tailOf ys) b hcount ha.bytes
  have hmod : (tailOf ys ++ b).length % 32 = (ys ++ b).length % 32 := by
    rw [List.length_append, List.length_append, tailOf_length]
    omega
  refine ⟨a', happend, ?_, hcount'.trans hmod, ?_⟩
  · rw [hlanes, ha.lanes, ← absorbed_append]
    rfl
  · rw [← tailOf_append, ← hmod]
    exact hcells

/-- Appending byte strings one after the other appends their concatenation (R173, R178). -/
theorem Accumulator.Holds.catAppendAll {a : Accumulator} {h : HashState} {ys : List Byte} (ha : a.Holds h ys)
    (chunks : List (List Byte)) : ∃ a', catAppendAll a chunks = some a' ∧ a'.Holds h (ys ++ chunks.flatten) := by
  induction chunks generalizing a ys with
  | nil => exact ⟨a, rfl, by simpa using ha⟩
  | cons b bs ih =>
    obtain ⟨a₁, happend, ha₁⟩ := ha.catAppend b
    obtain ⟨a₂, hall, ha₂⟩ := ih ha₁.holds
    refine ⟨a₂, ?_, ?_⟩
    · rw [Machine.catAppendAll, happend]
      exact hall
    · rw [List.flatten_cons, ← List.append_assoc]
      exact ha₂

/-- With the counted bytes present the finished copy exists (R177). -/
theorem finishCopy_of_bufBytes {buf : Vector (Option Byte) 32} {n : Nat} {xs : List Byte} (h : HashState) (hn : n ≤ 32)
    (hx : bufBytes buf n = some xs) : finishCopy h buf n = some (finished h xs) := by
  have hlen : xs.length = n := bufBytes_length hn hx
  by_cases h0 : n = 0 <;> simp [finishCopy, finished, hlen, h0, hx]

/-- The one-shot driver's lanes are those of the finished copy of the whole string (R160, R177). -/
theorem processAll_eq (data : List Byte) (key : Lanes) :
    processAll data key = finished (absorbed (initState key) data) (tailOf data) := by
  rw [finished, tailOf_length]
  rfl

/-- An accumulator that holds the data has the one-shot driver's finished copy (R178). -/
theorem Accumulator.Holds.finishCopy {a : Accumulator} {key : Lanes} {data : List Byte}
    (ha : a.Holds (initState key) data) : finishCopy a.h a.buf a.c = some (processAll data key) := by
  obtain ⟨hcount, -⟩ := ha.ok
  rw [finishCopy_of_bufBytes a.h (by omega) ha.bytes, processAll_eq, ha.lanes]

end Sys2Proof.Machine

namespace Sys2Proof.Proofs
open Sys2Proof.Machine

/-- Settles O48: what is buffered and what is appended is one string, whose length gives the count. -/
theorem catAppendMovesTheCount : Obligations.CatAppendMovesTheCount := by
  rintro a b ⟨hc, hbytes⟩
  obtain ⟨xs, hx⟩ := Option.isSome_iff_exists.1 hbytes
  obtain ⟨a', happend, ha'⟩ := (Accumulator.holds_of_bufBytes hc hx).catAppend b
  refine ⟨a', happend, ha'.holds.ok, ?_⟩
  rw [ha'.count, List.length_append, bufBytes_length (by omega) hx]

/-- Settles O49: both sides hold the buffered bytes, x and y, and a string has one accumulator. -/
theorem catAppendOfAConcatenation : Obligations.CatAppendOfAConcatenation := by
  rintro a x y ⟨hc, hbytes⟩
  obtain ⟨xs, hx⟩ := Option.isSome_iff_exists.1 hbytes
  have ha := Accumulator.holds_of_bufBytes hc hx
  obtain ⟨q, hq, hqs⟩ := ha.catAppend x
  obtain ⟨r, hr, hrs⟩ := hqs.holds.catAppend y
  obtain ⟨r', hr', hrs'⟩ := ha.catAppend (x ++ y)
  rw [← List.append_assoc] at hrs'
  exact ⟨q, r, hq, hr, hrs.unique hrs' ▸ hr'⟩

/-- Settles O50: after CAT_START the accumulator holds the empty string, after the chunks their concatenation. -/
theorem chunkingInvariance : Obligations.ChunkingInvariance := by
  intro key buf chunks
  have hstart : (⟨initState key, buf, 0⟩ : Accumulator).Holds (initState key) [] := ⟨rfl, rfl, bufBytes_zero buf⟩
  obtain ⟨a, hall, ha⟩ := hstart.catAppendAll chunks
  exact ⟨a, hall, ha.lanes, ha.count, ha.bytes, ha.finishCopy⟩

end Sys2Proof.Proofs
end

