-- ==== Sys2Proof/Proofs/Completion.lean ====
section
/-! PROOF. What the completion of each command does to the whole state (R204), and what no completion touches (R37). A
completion that reads the lanes, or the lanes and BUF, is first reduced to its body; the shapes of `Completed` then give the
access matrix. -/

namespace Sys2Proof.Machine

/-! ## Results in the statements' words -/

theorem permuteRounds_eq_afterRounds (n : Nat) (h : HashState) : permuteRounds n h = afterRounds n h := by
  induction n generalizing h with
  | zero => rfl
  | succ n ih => exact ih (permuteAndUpdate h)

theorem outLayout64_fin64 (h : HashState) : outLayout64 (fin64 h) = result64 h := by
  simp only [outLayout64, fin64, permuteRounds_eq_afterRounds]
  rfl

theorem outLayout128_fin128 (h : HashState) : outLayout128 (fin128 h) = result128 h := by
  simp only [outLayout128, fin128, permuteRounds_eq_afterRounds]
  rfl

theorem fin256_eq (h : HashState) : fin256 h = result256 h := by
  simp only [fin256, permuteRounds_eq_afterRounds]
  rfl

/-! ## The completions of a busy block -/

theorem withLanes_some {s : State} {h : HashState} (hs : s.hash = some h) (k : HashState → Result) :
    withLanes s k = k h := by simp [withLanes, hs]

theorem finalizeWith_some {s : State} {h : HashState} (hs : s.hash = some h) (f : HashState → Lanes) :
    finalizeWith f s = .next ((s.setOut (f h)).consume).finish := withLanes_some hs _

theorem finishWith_of_finishCopy {s : State} {h h' : HashState} (hs : s.hash = some h)
    (hcopy : finishCopy h s.buf s.cnt.toNat = some h') (f : HashState → Lanes) :
    finishWith f s = .next (s.setOut (f h')).finish := by
  rw [finishWith, withLanes_some hs, hcopy]

theorem finishWith_some {s : State} {h : HashState} {xs : List Byte} (hs : s.hash = some h)
    (hx : bufBytes s.buf s.cnt.toNat = some xs) (f : HashState → Lanes) :
    finishWith f s = .next (s.setOut (f (finished h xs))).finish :=
  have hcnt : s.cnt.toNat < 32 := s.cnt.isLt
  finishWith_of_finishCopy hs (finishCopy_of_bufBytes h (Nat.le_of_lt hcnt) hx) f

theorem appendBytes_some {s : State} {h : HashState} {b : List Byte} {a : Accumulator} (hs : s.hash = some h)
    (ha : catAppend ⟨h, s.buf, s.cnt.toNat⟩ b = some a) :
    appendBytes b s = .next ((s.setHash a.h).setBuffer a.buf (BitVec.ofNat 5 a.c)).finish := by
  rw [appendBytes, withLanes_some hs, ha]

/-- Below two blocks there is at most one to absorb. -/
theorem absorbed_of_lt_two_blocks (h : HashState) {ys : List Byte} (hy : ys.length < 64) :
    absorbed h ys = if ys.length < 32 then h else update h (lanesOf (ys.take 32)) := by
  split
  case isTrue hlt => exact absorbed_of_short h hlt
  case isFalse hge =>
    have hone : ys.length / 32 = 1 := by omega
    rw [absorbed, hone]
    rfl

/-- A data command starts nothing. -/
theorem isStart_of_data {i : Instr} (h : RawCommand i ∨ CatCommand i) : isStart i = false := by
  rw [rawCommand_iff, catCommand_iff] at h
  exact h.elim And.left And.left

/-! ## The seeds -/

theorem swap32_eq_append (x : Word) : swap32 x = low32 x ++ high32 x := by
  apply BitVec.eq_of_getLsbD_eq
  intro k hk
  have happ : (low32 x ++ high32 x).getLsbD k = if k < 32 then (high32 x).getLsbD k else (low32 x).getLsbD (k - 32) :=
    BitVec.getLsbD_append
  rw [happ, swap32, BitVec.getLsbD_or, BitVec.getLsbD_ushiftRight, BitVec.getLsbD_shiftLeft]
  by_cases hlow : k < 32
  · simp only [hlow, high32_getLsbD x hlow, if_true, decide_true, Bool.not_true, Bool.and_false, Bool.false_and,
      Bool.or_false]
  · have hsub : k - 32 < 32 := by omega
    have hge : x.getLsbD (32 + k) = false := BitVec.getLsbD_of_ge _ _ (by omega)
    simp only [hlow, hk, hge, low32_getLsbD x hsub, if_false, decide_true, decide_false, Bool.not_false, Bool.true_and,
      Bool.false_or]

theorem initState_opens (key : Lanes) : Opens (initState key) key := by
  refine ⟨rfl, rfl, fun i => ⟨?_, ?_⟩⟩
  · fin_cases i <;> rfl
  · rw [← swap32_eq_append]
    fin_cases i <;> rfl

end Sys2Proof.Machine

namespace Sys2Proof.Proofs
open Sys2Proof.Machine

/-- Settles O19: the two starts write the same lanes, those of `initState`, and differ in MODE only. -/
theorem startCommandsComplete : Obligations.StartCommandsComplete := fun s hb =>
  ⟨initState s.din, initState_opens s.din, exec_busy .reset s hb, exec_busy .catStart s hb⟩

/-- Settles O20: admission tests for a start before it reads any register. -/
theorem startCommandsAreAlwaysAdmitted : Obligations.StartCommandsAreAlwaysAdmitted := fun s hb =>
  ⟨exec_idle .reset s hb, exec_idle .catStart s hb⟩

/-- Settles O21: the completion reads the lanes, which are there. -/
theorem updatePacketCompletes : Obligations.UpdatePacketCompletes := fun s _ hb hs =>
  (exec_busy .updatePacket s hb).trans (withLanes_some hs _)

/-- Settles O22: the first LEN bytes of DIN are LEN many, which is what the perturbation counts. -/
theorem updateRemainderCompletes : Obligations.UpdateRemainderCompletes := by
  intro s h len hb hs _ _
  have hlen : ((List.range len).map (laneByte s.din)).length = len := laneBytes_length s.din len
  rw [exec_busy _ s hb, completion, completeUpdateRemainder, withLanes_some hs, updateRemainder, laneBytes, hlen]
  rfl

/-- Settles O23: the three widths are one completion with three finalisers. -/
theorem finalizeCommandsComplete : Obligations.FinalizeCommandsComplete := by
  intro s h hb hs
  rw [← outLayout64_fin64, ← outLayout128_fin128, ← fin256_eq]
  exact ⟨(exec_busy .finalize64 s hb).trans (finalizeWith_some hs _),
    (exec_busy .finalize128 s hb).trans (finalizeWith_some hs _),
    (exec_busy .finalize256 s hb).trans (finalizeWith_some hs _)⟩

/-- Settles O25: the three widths are one completion on the finished copy, which the counted bytes give. -/
theorem catFinishCommandsComplete : Obligations.CatFinishCommandsComplete := by
  intro s h xs hb hs hx
  rw [← outLayout64_fin64, ← outLayout128_fin128, ← fin256_eq]
  exact ⟨(exec_busy .catFinish64 s hb).trans (finishWith_some hs hx _),
    (exec_busy .catFinish128 s hb).trans (finishWith_some hs hx _),
    (exec_busy .catFinish256 s hb).trans (finishWith_some hs hx _)⟩

/-- Settles O24: CatAppend works on the buffered and the new bytes as one string, here shorter than two blocks. -/
theorem catAppendCompletes : Obligations.CatAppendCompletes := by
  rintro s h xs ys len hb hs hx hlen hys
  have hcnt : s.cnt.toNat < 32 := s.cnt.isLt
  have hylen : ys.length < 64 := by
    rw [hys, List.length_append, bufBytes_length (by omega) hx, List.length_map, List.length_range]
    omega
  have hstart : (⟨h, s.buf, s.cnt.toNat⟩ : Accumulator).Holds h xs := Accumulator.holds_of_bufBytes hcnt hx
  obtain ⟨a, happend, ha⟩ := hstart.catAppend (laneBytes s.din len)
  rw [laneBytes, ← hys] at ha
  have hfit : (BitVec.ofNat 5 a.c).toNat = a.c := ha.holds.toNat_ofNat_count
  refine ⟨a.buf, BitVec.ofNat 5 a.c, hfit.trans ha.count, ?_, fun k hk => ha.cell_eq_none k (hfit ▸ hk), ?_⟩
  · rw [hfit, ha.holds.bytes, tailOf]
  · rw [exec_busy _ s hb, completion, completeCatAppend, appendBytes_some hs happend, ← absorbed_of_lt_two_blocks h hylen,
      ha.lanes]
    rfl

/-- Settles O26: each shape of a completed state changes the fields its commands may change. -/
theorem completionFollowsTheAccessMatrix : Obligations.CompletionFollowsTheAccessMatrix := by
  intro i s t hb h
  cases exec_busy_completed hb h with
  | started hi =>
    have hraw : ¬ RawCommand i := by simp [rawCommand_iff, hi]
    have hcat : ¬ CatCommand i := by simp [catCommand_iff, hi]
    have habsorb : ¬ (i = .updatePacket ∨ ∃ len, i = .updateRemainder len) := by rintro (rfl | ⟨len, rfl⟩) <;> cases hi
    simp [hraw, hcat, habsorb]
  | absorbed x x' hi hs =>
    obtain rfl | ⟨len, rfl⟩ := hi <;> simp [CatCommand]
  | finalized x o hi hs =>
    obtain rfl | rfl | rfl := hi <;> simp [CatCommand, WritesOut]
  | appended x a len hi hs ha =>
    subst hi
    simp [RawCommand, WritesOut]
  | finished x o hi hs =>
    obtain rfl | rfl | rfl := hi <;> simp [WritesOut]

/-- Settles O30: the finalised state is idle, error-free and not live, so admission answers NOT_LIVE. -/
theorem finalizedStateCannotBeReused : Obligations.FinalizedStateCannotBeReused := by
  intro s h i j hb he hs hi hj
  have hdone : ∃ o, exec i s = .next ((s.setOut o).consume).finish := by
    obtain rfl | rfl | rfl := hi <;> exact ⟨_, (exec_busy _ s hb).trans (finalizeWith_some hs _)⟩
  obtain ⟨o, hdone⟩ := hdone
  have herr : ((s.setOut o).consume).finish.err = false := he
  refine ⟨_, hdone, ?_⟩
  rw [exec_idle j _ rfl, admission_notLive (isStart_of_data hj) herr rfl, State.record_of_ok _ .notLive herr]

end Sys2Proof.Proofs
end

