-- ==== Sys2Proof/Proofs/HostAccess.lean ====
section
/-! PROOF. What host accesses and power-on can do, from every state (R50 to R55, R203, R207, R230): where the window lies,
which accesses are invalid, and which fields an access changes. The next state of a write and of a read is said once,
`onHostWrite_next` and `onHostRead_next`. -/

namespace Sys2Proof.Machine

/-! ## Admission and the error record as record updates -/

theorem State.record_eq (s : State) (code : ErrCode) :
    s.record code = { s with err := (s.record code).err, errcode := (s.record code).errcode } := by
  unfold record; split <;> rfl

/-- Admission drops, records an error, or accepts, and only an acceptance clears an error (R203). -/
theorem admission_eq (i : Instr) (s : State) :
    admission i s = s ∨ (∃ code, code ≠ .noError ∧ admission i s = s.record code) ∨
      admission i s = s.accept (encode i) ∨ admission i s = s.clearError.accept (encode i) := by
  obtain ⟨-, h⟩ | ⟨-, -, h⟩ | ⟨-, -, -, h⟩ | ⟨-, -, -, -, h⟩ | ⟨-, -, -, -, -, h⟩ | ⟨-, -, -, -, -, h⟩ :=
    admission_cases i s
  · exact .inr (.inr (.inr h))
  · exact .inl h
  · exact .inr (.inl ⟨_, by decide, h⟩)
  · exact .inr (.inl ⟨_, by decide, h⟩)
  · exact .inr (.inl ⟨_, by decide, h⟩)
  · exact .inr (.inr (.inl h))

/-! ## The next state of an access -/

/-- A host write is refused or not the block's, or an idle block stores it in DIN or admits the command it decodes to. -/
theorem onHostWrite_next {addr width : Nat} {w : Word} {s t : State} (h : onHostWrite addr width w s = .next t) :
    (t = s ∨ ∃ code, code ≠ .noError ∧ t = s.record code) ∨
    (s.busy = false ∧ ∃ i : Fin 4, Event.write addr width w = wr s.hhBase (8 * i.val) w ∧ t = s.setDin i w) ∨
    (s.busy = false ∧ Event.write addr width w = wr s.hhBase cmdOffset w ∧
      ∃ i, decode w = .command i ∧ t = admission i s) := by
  obtain ⟨hcmd, heq⟩ | ⟨i, hdin, heq⟩ | heq | heq := onHostWrite_cases addr width w s
  · rw [heq] at h
    cases hb : s.busy with
    | true =>
      rw [onCmdWrite_busy w hb] at h
      cases h; exact .inl (.inr ⟨_, by decide, rfl⟩)
    | false =>
      cases hw : decode w with
      | illegal why =>
        rw [onCmdWrite_illegal hb hw] at h
        cases h; exact .inl (.inr ⟨_, by decide, rfl⟩)
      | command i =>
        rw [onCmdWrite_command hb hw, exec_idle i s hb] at h
        cases h; exact .inr (.inr ⟨rfl, hcmd, i, rfl, rfl⟩)
  · rw [heq] at h
    cases hb : s.busy with
    | true =>
      rw [onDinWrite_busy i w hb] at h
      cases h; exact .inl (.inr ⟨_, by decide, rfl⟩)
    | false =>
      rw [onDinWrite_idle i w hb] at h
      cases h; exact .inr (.inl ⟨rfl, i, hdin, rfl⟩)
  · cases heq ▸ h; exact .inl (.inr ⟨_, by decide, rfl⟩)
  · cases heq ▸ h; exact .inl (.inl rfl)

/-- A host read changes at most the list of values read (R54). -/
theorem onHostRead_next {addr width : Nat} {s t : State} (h : onHostRead addr width s = .next t) :
    t = s ∨ ∃ v, t = s.logRead v := by
  unfold onHostRead at h
  split at h
  · cases h; exact .inr ⟨_, rfl⟩
  · split at h <;> cases h
    · exact .inr ⟨_, rfl⟩
    · exact .inl rfl

/-- A completion turn leaves an idle block as it is and completes the command a busy block holds (R204). -/
theorem onComplete_next {s t : State} (h : onComplete s = .next t) :
    (s.busy = false ∧ t = s) ∨
      (s.busy = true ∧ ∃ c i, s.pend = some c ∧ decode (cmdWrite c) = .command i ∧ exec i s = .next t) := by
  cases hb : s.busy with
  | false =>
    rw [onComplete_idle hb] at h
    cases h; exact .inl ⟨rfl, rfl⟩
  | true =>
    unfold onComplete at h
    rw [hb, if_pos rfl] at h
    split at h
    · cases h
    rename_i c hc
    split at h
    · cases h
    rename_i i hi
    exact .inr ⟨rfl, c, i, hc, hi, h⟩

theorem completed_busy {i : Instr} {s t : State} (h : Completed i s t) : t.busy = false := by cases h <;> rfl

/-- Only the commands that write OUT change it (R29). -/
theorem completed_out {i : Instr} {s t : State} (h : Completed i s t) : t.out = s.out ∨ WritesOut i := by
  cases h with
  | started hi => exact .inl rfl
  | absorbed x x' hi hs => exact .inl rfl
  | finalized x o hi hs => obtain rfl | rfl | rfl := hi <;> exact .inr trivial
  | appended x a len hi hs ha => exact .inl rfl
  | finished x o hi hs => obtain rfl | rfl | rfl := hi <;> exact .inr trivial

theorem admission_out (i : Instr) (s : State) : (admission i s).out = s.out := by
  obtain h | ⟨code, -, h⟩ | h | h := admission_eq i s <;> simp [h]

theorem onHostWrite_out {addr width : Nat} {w : Word} {s t : State} (h : onHostWrite addr width w s = .next t) :
    t.out = s.out := by
  obtain (rfl | ⟨code, -, rfl⟩) | ⟨-, i, -, rfl⟩ | ⟨-, -, i, -, rfl⟩ := onHostWrite_next h
  · rfl
  · simp
  · rfl
  · exact admission_out i s

theorem onHostRead_out {addr width : Nat} {s t : State} (h : onHostRead addr width s = .next t) : t.out = s.out := by
  obtain rfl | ⟨v, rfl⟩ := onHostRead_next h <;> rfl

/-- While BUSY = 1 a host access records an error, logs a value, or does nothing (R207, R208). -/
theorem access_busy_next {e : Event} {s t : State} (hb : s.busy = true) (hc : e ≠ .complete) (hp : e ≠ .powerOn)
    (h : onEvent e s = .next t) : t = s ∨ (∃ code, code ≠ .noError ∧ t = s.record code) ∨ ∃ v, t = s.logRead v := by
  cases e with
  | write addr width w =>
    obtain (h | h) | ⟨hidle, -⟩ | ⟨hidle, -⟩ := onHostWrite_next h
    · exact .inl h
    · exact .inr (.inl h)
    · simp [hb] at hidle
    · simp [hb] at hidle
  | read addr width => exact (onHostRead_next h).imp_right .inr
  | complete => exact absurd rfl hc
  | powerOn => exact absurd rfl hp

/-- From s to t the block's registers but ERR and ERRCODE stay as they are: a pending command still is, on the same
operands. -/
structure State.Frozen (s t : State) : Prop where
  hash : t.hash = s.hash
  buf : t.buf = s.buf
  cnt : t.cnt = s.cnt
  live : t.live = s.live
  mode : t.mode = s.mode
  busy : t.busy = s.busy
  pend : t.pend = s.pend
  din : t.din = s.din
  out : t.out = s.out

theorem State.Frozen.refl (s : State) : s.Frozen s := ⟨rfl, rfl, rfl, rfl, rfl, rfl, rfl, rfl, rfl⟩

theorem State.Frozen.trans {s t u : State} (h : s.Frozen t) (h' : t.Frozen u) : s.Frozen u :=
  ⟨h'.hash.trans h.hash, h'.buf.trans h.buf, h'.cnt.trans h.cnt, h'.live.trans h.live, h'.mode.trans h.mode,
    h'.busy.trans h.busy, h'.pend.trans h.pend, h'.din.trans h.din, h'.out.trans h.out⟩

/-- The step of a host access while BUSY = 1 freezes the operands (R203). -/
theorem step_busy_frozen {s t : State} {e : Event} {rest : List Event} (hb : s.busy = true) (ha : s.agenda = e :: rest)
    (hc : e ≠ .complete) (hp : e ≠ .powerOn) (h : step s = .next t) : s.Frozen t ∧ t.agenda = rest := by
  rw [step_cons ha] at h
  obtain rfl | ⟨code, -, rfl⟩ | ⟨v, rfl⟩ := access_busy_next (s := s.setAgenda rest) hb hc hp h
  · exact ⟨by constructor <;> rfl, rfl⟩
  · exact ⟨by constructor <;> simp, by simp⟩
  · exact ⟨by constructor <;> rfl, rfl⟩

/-! ## The window -/

/-- A write in the window that is not 8 bytes at a multiple of 8 is refused (R53). -/
theorem onWrite_invalid {off width : Nat} (w : Word) (s : State) (h : validAccess off width = false) :
    onWrite off width w s = .next (s.record .busAccess) := by simp [onWrite, h]

/-- A read in the window that is not 8 bytes at a multiple of 8 returns 0 (R53). -/
theorem onRead_invalid {off width : Nat} (s : State) (h : validAccess off width = false) :
    onRead off width s = .next (s.logRead 0) := by simp [onRead, readValue, h]

theorem onHostWrite_fromBelow {addr width : Nat} (w : Word) {s : State} (h : addr < s.hhBase ∧ s.hhBase < addr + width) :
    onHostWrite addr width w s = .next (s.record .busAccess) := by
  simp [onHostWrite, (windowOffset_eq_none_iff s addr).2 (.inl h.1), (runsIntoWindow_iff s addr width).2 h]

theorem onHostRead_fromBelow {addr width : Nat} {s : State} (h : addr < s.hhBase ∧ s.hhBase < addr + width) :
    onHostRead addr width s = .next (s.logRead 0) := by
  simp [onHostRead, (windowOffset_eq_none_iff s addr).2 (.inl h.1), (runsIntoWindow_iff s addr width).2 h]

theorem windowOffset_eq_some_iff (s : State) (addr off : Nat) :
    windowOffset s addr = some off ↔ addr = s.hhBase + off ∧ off < 0x100 := by
  constructor
  · intro h
    obtain ⟨haddr, hoff, -⟩ := windowOffset_some h
    exact ⟨haddr, hoff⟩
  · rintro ⟨rfl, hoff⟩
    exact windowOffset_base s off hoff

/-! ## The rest of STATUS (R30) -/

theorem statusWord_err (s : State) : (statusWord s).getLsbD 3 = s.err := by
  rw [statusWord_getLsbD]; simp

theorem statusWord_errcode (s : State) : (statusWord s).extractLsb' 4 4 = s.errcode.bits := by
  apply BitVec.eq_of_getLsbD_eq
  intro k hk
  have hcnt : ¬ 8 ≤ 4 + k := by omega
  rw [BitVec.getLsbD_extractLsb', statusWord_getLsbD]
  simp [hk, hcnt]

/-- Bits 63:13 are past the five bits of CNT. -/
theorem statusWord_upper (s : State) : (statusWord s).extractLsb' 13 51 = 0 := by
  apply BitVec.eq_of_getLsbD_eq
  intro k hk
  have hcnt : 8 ≤ 13 + k := by omega
  have hpast : s.cnt.getLsbD (13 + k - 8) = false := BitVec.getLsbD_of_ge _ _ (by omega)
  rw [BitVec.getLsbD_extractLsb', statusWord_getLsbD, if_pos hcnt, hpast]
  simp

theorem ErrCode.bits_le (c : ErrCode) : c.bits.toNat ≤ 6 := by cases c <;> decide

end Sys2Proof.Machine

namespace Sys2Proof.Proofs
open Sys2Proof.Machine

/-- Settles O10: the three kinds of next state of a host write; an admitted command that is not accepted only records. -/
theorem writeRefusedStoredOrAccepted : Obligations.WriteRefusedStoredOrAccepted := by
  intro s t addr width v rest ha h
  rw [step_cons ha] at h
  obtain (rfl | ⟨code, -, rfl⟩) | ⟨hb, i, hdin, rfl⟩ | ⟨hb, hcmd, i, hv, rfl⟩ := onHostWrite_next h
  · exact .inl rfl
  · exact .inl (State.record_eq _ _)
  · cases hdin
    exact .inr (.inl ⟨hb, i, rfl, rfl, rfl⟩)
  · cases hcmd
    obtain h | ⟨code, -, h⟩ | h | h := admission_eq i (s.setAgenda rest) <;> rw [h]
    · exact .inl rfl
    · exact .inl (State.record_eq _ _)
    · exact .inr (.inr ⟨hb, rfl, rfl, i, hv, rfl⟩)
    · exact .inr (.inr ⟨hb, rfl, rfl, i, hv, rfl⟩)

/-- Settles O12: an access from inside the window has an offset that is no valid access, one from below runs into it. -/
theorem invalidAccessesAreRefused : Obligations.InvalidAccessesAreRefused := by
  intro s addr width v rest hreach hend hinvalid
  by_cases hin : s.hhBase ≤ addr
  · obtain ⟨off, rfl⟩ := Nat.exists_eq_add_of_le hin
    have hoff : off < 0x100 := by omega
    have hno : validAccess off width = false := by
      rw [← Bool.not_eq_true, validAccess_iff]
      omega
    exact ⟨fun h => (step_write hoff h).trans (onWrite_invalid v _ hno),
      fun h => (step_read hoff h).trans (onRead_invalid _ hno)⟩
  · have hbelow : addr < s.hhBase ∧ s.hhBase < addr + width := by omega
    exact ⟨fun h => (step_cons h).trans (onHostWrite_fromBelow v (s := s.setAgenda rest) hbelow),
      fun h => (step_cons h).trans (onHostRead_fromBelow (s := s.setAgenda rest) hbelow)⟩

/-- Settles O18: where the window lies, and that an access past it neither has an offset nor runs into it. -/
theorem windowIsAtHhBase : Obligations.WindowIsAtHhBase := by
  intro s
  refine ⟨Nat.mul_mod_right _ _, windowOffset_eq_some_iff s, fun addr off h => ?_, fun addr width v rest hout ha => ?_⟩
  · obtain ⟨-, -, haligned⟩ := windowOffset_some h
    exact haligned
  · have hnone : windowOffset (s.setAgenda rest) addr = none := (windowOffset_eq_none_iff _ _).2 (hout.imp_left And.left)
    have hruns : runsIntoWindow (s.setAgenda rest) addr width = false := by
      rw [← Bool.not_eq_true, runsIntoWindow_iff, setAgenda_hhBase]
      omega
    obtain ha | ha := ha <;> rw [step_cons ha]
    · simp [onEvent, onHostWrite, hnone, hruns]
    · simp [onEvent, onHostRead, hnone, hruns]

/-- Settles O15: each field by its bits of the word; the accesses by the step of a valid read and of a refused write. -/
theorem statusWordFields : Obligations.StatusWordFields := by
  refine ⟨fun s => ⟨statusWord_busy s, statusWord_live s, statusWord_mode s, statusWord_err s, statusWord_errcode s,
    s.errcode.bits_le, fun hok he => ?_, statusWord_cnt s, statusWord_upper s⟩, by decide,
    fun s rest ha => step_rd (by decide) (by decide) ha, fun s v rest ha => ?_⟩
  · rw [statusWord_errcode, hok.1 he]
    rfl
  · rw [step_write (by decide) ha, onWrite_refused _ _ _ (by decide) (by decide)]

/-- Settles O17: power-on is a step of its own that asks nothing of the state. -/
theorem powerOnAbandonsThePendingCommand : Obligations.PowerOnAbandonsThePendingCommand := fun _ _ ha => step_cons ha

/-- Settles O27: a case for each event; a completion changes OUT only by a command that writes it. -/
theorem outChangesOnlyByAResult : Obligations.OutChangesOnlyByAResult := by
  intro s t h
  have hturn : ∀ es, onComplete (s.setAgenda es) = .next t → t.out = s.out ∨
      s.busy = true ∧ t.busy = false ∧ ∃ c i, s.pend = some c ∧ decode (cmdWrite c) = .command i ∧ WritesOut i := by
    intro es h
    obtain ⟨-, rfl⟩ | ⟨hb, c, i, hc, hi, he⟩ := onComplete_next h
    · exact .inl rfl
    · have hdone := exec_busy_completed (s := s.setAgenda es) hb he
      exact (completed_out hdone).imp_right fun hout => ⟨hb, completed_busy hdone, c, i, hc, hi, hout⟩
  cases ha : s.agenda with
  | nil =>
    obtain h | ⟨hb, ht, hcmd⟩ := hturn [] (by rw [← ha]; exact step_nil ha ▸ h)
    · exact .inl h
    · exact .inr (.inr ⟨hb, ht, .inl rfl, hcmd⟩)
  | cons e rest =>
    rw [step_cons ha] at h
    cases e with
    | write addr width w => exact .inl (onHostWrite_out (s := s.setAgenda rest) h)
    | read addr width => exact .inl (onHostRead_out (s := s.setAgenda rest) h)
    | complete =>
      obtain h | ⟨hb, ht, hcmd⟩ := hturn rest h
      · exact .inl h
      · exact .inr (.inr ⟨hb, ht, .inr ⟨rest, rfl⟩, hcmd⟩)
    | powerOn => exact .inr (.inl ⟨rest, rfl⟩)

/-- Settles O28: while BUSY = 1 an access reaches ERR, ERRCODE and the list of values read at most. -/
theorem operandsFrozenWhileBusy : Obligations.OperandsFrozenWhileBusy := by
  intro s t e rest hb ha hc hp h
  obtain ⟨⟨hash, buf, cnt, live, mode, busy, pend, din, out⟩, -⟩ :=
    step_busy_frozen hb ha hc hp h
  exact ⟨hash, buf, cnt, live, mode, busy.trans hb, pend, din, out⟩

/-- Settles O29: a data command is dropped by the check of ERR; a DIN write reads no ERR. -/
theorem noDataCommandWhileErr : Obligations.NoDataCommandWhileErr := by
  refine fun s hb he => ⟨fun i hdata => ?_, fun i v rest ha => step_wr_din_idle i hb ha⟩
  rw [exec_idle i s hb, admission_dropped (isStart_of_data hdata) he]

end Sys2Proof.Proofs
end

