-- ==== Sys2Proof/Proofs/Invariant.lean ====
section
/-! PROOF. The invariant (R24, R27, R32, R38, R203) and the runs it gives: it holds after power-on, every step keeps it, and from
a state that has it no step stops. Its first four clauses do not read BUSY and PEND (`State.Settled`); what an acceptance
adds to them is an admissible command in PEND, and what a completion needs is just that. -/

namespace Sys2Proof.Machine
open Sys2Proof.Laws

/-- The clauses of the invariant about everything but the pending command. -/
abbrev State.Settled (s : State) : Prop := s.lifecycleOk ∧ s.lanesOk ∧ s.bufferOk ∧ s.errorOk

theorem State.Inv.settled {s : State} (hs : s.Inv) : s.Settled :=
  have ⟨hlife, hlanes, hbuf, herr, _⟩ := hs
  ⟨hlife, hlanes, hbuf, herr⟩

/-! ## Idle and pending states with the invariant -/

theorem State.Settled.inv_of_idle {s : State} (hs : s.Settled) (hb : s.busy = false) (hp : s.pend = none) : s.Inv :=
  have ⟨hlife, hlanes, hbuf, herr⟩ := hs
  ⟨hlife, hlanes, hbuf, herr, fun h => absurd h (by simp [hb]), fun _ => hp⟩

theorem pendAdmitted_accept {i : Instr} (hwf : i.wf = true) (s : State) :
    pendAdmitted (s.accept (encode i)) = admissible i s := by
  rw [pendAdmitted, State.accept_pend]
  simp only [decode_cmdWrite_encode hwf]
  rfl

theorem State.Settled.inv_accept {s : State} {i : Instr} (hs : s.Settled) (hwf : i.wf = true)
    (hadm : admissible i s = true) : (s.accept (encode i)).Inv :=
  have ⟨hlife, hlanes, hbuf, herr⟩ := hs
  ⟨hlife, hlanes, hbuf, herr, fun _ => (pendAdmitted_accept hwf s).trans hadm, fun h => Bool.noConfusion h⟩

/-- A pending command of a state with the invariant was let through by admission (R203). -/
theorem State.Inv.pending {s : State} (hs : s.Inv) (hb : s.busy = true) :
    ∃ c i, s.pend = some c ∧ decode (cmdWrite c) = .command i ∧ admissible i s = true := by
  obtain ⟨-, -, -, -, hpend, -⟩ := hs
  have hadm := hpend hb
  unfold pendAdmitted at hadm
  split at hadm
  · cases hadm
  rename_i c hc
  split at hadm
  · cases hadm
  exact ⟨c, _, hc, ‹_›, hadm⟩

theorem admissible_of_start {i : Instr} (hi : isStart i = true) (s : State) : admissible i s = true := by
  simp [admissible, hi]

/-- What a data command has passed (R203). -/
theorem admissible_data_iff {i : Instr} (hi : isStart i = false) (s : State) :
    admissible i s = true ↔ s.live = true ∧ modeOf i = s.mode ∧ lenLegal i = true := by
  simp [admissible, hi, and_assoc]

theorem modeOf_of_admissible {i : Instr} {s : State} (hi : isStart i = false) (hadm : admissible i s = true) :
    modeOf i = s.mode :=
  have ⟨_, hmode, _⟩ := (admissible_data_iff hi s).1 hadm
  hmode

/-! ## Each event keeps the invariant -/

theorem State.inv_reset (page : Nat) (es : List Event) (vs : List Word) :
    ({ State.reset with hhPage := page, agenda := es, reads := vs } : State).Inv := by
  refine Settled.inv_of_idle ⟨⟨fun _ => rfl, fun h => Mode.noConfusion h⟩, rfl, ⟨?_, fun k _ => reset_buf_getElem k⟩,
    iff_of_true rfl rfl⟩ rfl rfl
  exact congrArg Option.isSome (bufBytes_zero _)

theorem State.Inv.record {s : State} (hs : s.Inv) {code : ErrCode} (hc : code ≠ .noError) : (s.record code).Inv := by
  cases he : s.err with
  | true => rwa [record_of_err s code he]
  | false =>
    obtain ⟨hlife, hlanes, hbuf, -, hpend⟩ := hs
    rw [record_of_ok s code he]
    exact ⟨hlife, hlanes, hbuf, iff_of_false (by simp) hc, hpend⟩

theorem State.Inv.admission {s : State} (hs : s.Inv) {i : Instr} (hwf : i.wf = true) : (admission i s).Inv := by
  obtain ⟨hi, h⟩ | ⟨-, -, h⟩ | ⟨-, -, -, h⟩ | ⟨-, -, -, -, h⟩ | ⟨-, -, -, -, -, h⟩ | ⟨hi, -, hlive, hmode, hlen, h⟩ :=
    admission_cases i s <;> rw [h]
  · obtain ⟨hlife, hlanes, hbuf, -⟩ := hs.settled
    have hclear : s.clearError.Settled := ⟨hlife, hlanes, hbuf, iff_of_true rfl rfl⟩
    exact hclear.inv_accept hwf (admissible_of_start hi _)
  · exact hs
  · exact hs.record (by decide)
  · exact hs.record (by decide)
  · exact hs.record (by decide)
  · exact hs.settled.inv_accept hwf ((admissible_data_iff hi s).2 ⟨hlive, hmode, hlen⟩)

/-- The completion of an admitted command leaves the other clauses as they must be, and nothing pending (R204). -/
theorem State.Inv.completed {s t : State} (hs : s.Inv) {i : Instr} (hadm : admissible i s = true)
    (h : Completed i s t) : t.Inv := by
  obtain ⟨hlife, hlanes, ⟨hbytes, hrest⟩, herr⟩ := hs.settled
  refine Settled.inv_of_idle ?_ (completed_busy h) (by cases h <;> rfl)
  cases h with
  | started hi =>
    exact ⟨⟨fun _ => rfl, fun _ => rfl⟩, rfl, ⟨congrArg Option.isSome (bufBytes_zero _), fun k _ => reset_buf_getElem k⟩,
      herr⟩
  | absorbed x x' hi hx => exact ⟨hlife, by simpa [lanesOk, hx] using hlanes, ⟨hbytes, hrest⟩, herr⟩
  | finalized x o hi hx =>
    have hraw : s.mode = .raw := by
      obtain rfl | rfl | rfl := hi <;> exact (modeOf_of_admissible rfl hadm).symm
    exact ⟨⟨hlife.1, fun hcat => Mode.noConfusion (hraw.symm.trans hcat)⟩, rfl, ⟨hbytes, hrest⟩, herr⟩
  | appended x a len hi hx ha =>
    subst hi
    obtain ⟨hlive, hcat, -⟩ := (admissible_data_iff rfl s).1 hadm
    obtain ⟨xs, hxs⟩ := Option.isSome_iff_exists.1 hbytes
    have hcnt : s.cnt.toNat < 32 := s.cnt.isLt
    have hstart : (⟨x, s.buf, s.cnt.toNat⟩ : Accumulator).Holds x xs := Accumulator.holds_of_bufBytes hcnt hxs
    obtain ⟨a', happend, ha'⟩ := hstart.catAppend (laneBytes s.din len)
    obtain rfl : a = a' := Option.some.inj (ha.symm.trans happend)
    have hfit : (BitVec.ofNat 5 a.c).toNat = a.c := ha'.holds.toNat_ofNat_count
    refine ⟨⟨fun hraw => Mode.noConfusion (hcat.trans hraw), fun _ => hlive⟩, hlive, ⟨?_, fun k hk => ?_⟩, herr⟩
    · simp [hfit, ha'.holds.bytes]
    · exact ha'.cell_eq_none k (hfit ▸ hk)
  | finished x o hi hx => exact ⟨hlife, hlanes, ⟨hbytes, hrest⟩, herr⟩

theorem State.Inv.happened {s t : State} (hs : s.Inv) (h : Happened s t) : t.Inv := by
  cases h with
  | unchanged => exact hs
  | refusedAccess => exact hs.record (by decide)
  | refusedBusy hb => exact hs.record (by decide)
  | refusedIllegal hb => exact hs.record (by decide)
  | dinWritten i v hb => exact hs
  | submitted i w hb hw => exact hs.admission (wf_of_decode hw)
  | readDone v => exact hs
  | completed t i c hb hp hd he ht =>
    obtain ⟨c', i', hp', hd', hadm⟩ := hs.pending hb
    obtain rfl : c = c' := Option.some.inj (hp.symm.trans hp')
    obtain rfl : i = i' := Decoded.command.inj (hd.symm.trans hd')
    exact hs.completed hadm ht
  | poweredOn => exact inv_reset s.hhPage s.agenda s.reads

theorem State.Inv.step {s t : State} (hs : s.Inv) (h : step s = .next t) : t.Inv :=
  State.Inv.happened (s := s.setAgenda s.agenda.tail) hs (step_happened h)

/-! ## No step stops -/

theorem onCmdWrite_answers (w : Word) (s : State) : ∃ t, onCmdWrite w s = .next t := by
  cases hb : s.busy with
  | true => exact ⟨_, onCmdWrite_busy w hb⟩
  | false =>
    cases hw : decode w with
    | illegal why => exact ⟨_, onCmdWrite_illegal hb hw⟩
    | command i => exact ⟨_, (onCmdWrite_command hb hw).trans (exec_idle i s hb)⟩

theorem onDinWrite_answers (i : Fin 4) (w : Word) (s : State) : ∃ t, onDinWrite i w s = .next t := by
  cases hb : s.busy with
  | true => exact ⟨_, onDinWrite_busy i w hb⟩
  | false => exact ⟨_, onDinWrite_idle i w hb⟩

/-- No host access stops the block, whatever the state. -/
theorem onHostWrite_answers (addr width : Nat) (w : Word) (s : State) : ∃ t, onHostWrite addr width w s = .next t := by
  obtain ⟨-, h⟩ | ⟨i, -, h⟩ | h | h := onHostWrite_cases addr width w s
  · exact h ▸ onCmdWrite_answers w s
  · exact h ▸ onDinWrite_answers i w s
  · exact ⟨_, h⟩
  · exact ⟨_, h⟩

theorem onHostRead_answers (addr width : Nat) (s : State) : ∃ t, onHostRead addr width s = .next t := by
  unfold onHostRead
  split
  · exact ⟨_, rfl⟩
  · split <;> exact ⟨_, rfl⟩

/-- The lanes of a live computation and its counted bytes are there to be read (R24, R38, R39). -/
theorem State.Inv.operands {s : State} (hs : s.Inv) (hlive : s.live = true) :
    ∃ h xs, s.hash = some h ∧ bufBytes s.buf s.cnt.toNat = some xs := by
  obtain ⟨-, hlanes, ⟨hbytes, -⟩, -⟩ := hs.settled
  obtain ⟨h, hh⟩ := Option.isSome_iff_exists.1 (hlanes.symm.trans hlive)
  obtain ⟨xs, hxs⟩ := Option.isSome_iff_exists.1 hbytes
  exact ⟨h, xs, hh, hxs⟩

/-- The completion of an admitted command finds all it reads (R39, R204). -/
theorem State.Inv.exec_answers {s : State} (hs : s.Inv) (hb : s.busy = true) {i : Instr} (hadm : admissible i s = true) :
    ∃ t, exec i s = .next t := by
  rw [exec_busy i s hb]
  cases hi : isStart i with
  | true => obtain rfl | rfl := (isStart_iff i).1 hi <;> exact ⟨_, rfl⟩
  | false =>
    obtain ⟨hlive, -⟩ := (admissible_data_iff hi s).1 hadm
    obtain ⟨h, xs, hh, hxs⟩ := hs.operands hlive
    cases i with
    | reset => cases hi
    | catStart => cases hi
    | updatePacket => exact ⟨_, withLanes_some hh _⟩
    | updateRemainder len => exact ⟨_, withLanes_some hh _⟩
    | finalize64 => exact ⟨_, finalizeWith_some hh _⟩
    | finalize128 => exact ⟨_, finalizeWith_some hh _⟩
    | finalize256 => exact ⟨_, finalizeWith_some hh _⟩
    | catAppend len =>
      have hstart : (⟨h, s.buf, s.cnt.toNat⟩ : Accumulator).Holds h xs := Accumulator.holds_of_bufBytes s.cnt.isLt hxs
      obtain ⟨a, happend, -⟩ := hstart.catAppend (laneBytes s.din len)
      exact ⟨_, appendBytes_some hh happend⟩
    | catFinish64 => exact ⟨_, finishWith_some hh hxs _⟩
    | catFinish128 => exact ⟨_, finishWith_some hh hxs _⟩
    | catFinish256 => exact ⟨_, finishWith_some hh hxs _⟩

/-- The completion turn of a busy block runs the pending command to its end, and BUSY falls (R204). -/
theorem State.Inv.onComplete_pending {s : State} (hs : s.Inv) (hb : s.busy = true) :
    ∃ t c i, s.pend = some c ∧ decode (cmdWrite c) = .command i ∧ onComplete s = exec i s ∧ onComplete s = .next t ∧
      t.busy = false := by
  obtain ⟨c, i, hc, hi, hadm⟩ := hs.pending hb
  obtain ⟨t, ht⟩ := hs.exec_answers hb hadm
  have heq := onComplete_busy hb hc hi
  exact ⟨t, c, i, hc, hi, heq, heq.trans ht, completed_busy (exec_busy_completed hb ht)⟩

theorem State.Inv.onComplete_answers {s : State} (hs : s.Inv) : ∃ t, onComplete s = .next t := by
  cases hb : s.busy with
  | false => exact ⟨_, onComplete_idle hb⟩
  | true =>
    obtain ⟨t, -, -, -, -, -, ht, -⟩ := hs.onComplete_pending hb
    exact ⟨t, ht⟩

theorem State.Inv.step_answers {s : State} (hs : s.Inv) : ∃ t, Machine.step s = .next t := by
  cases ha : s.agenda with
  | nil => exact step_nil ha ▸ hs.onComplete_answers
  | cons e rest =>
    rw [step_cons ha]
    cases e with
    | write addr width w => exact onHostWrite_answers addr width w _
    | read addr width => exact onHostRead_answers addr width _
    | complete => exact State.Inv.onComplete_answers (s := s.setAgenda rest) hs
    | powerOn => exact ⟨_, rfl⟩

theorem State.Inv.safeRun {s : State} (hs : s.Inv) (n : Nat) : SafeRun n s := by
  induction n generalizing s with
  | zero => exact ⟨s, rfl⟩
  | succ n ih =>
    obtain ⟨t, ht⟩ := hs.step_answers
    obtain ⟨u, hu⟩ := ih (hs.step ht)
    exact ⟨u, (runSteps_succ n ht).trans hu⟩

/-! ## The pending command's turn comes -/

/-- The next turn is the completion engine's: by the agenda, or for want of events (log entry 2). -/
def State.CompletesNext (s : State) : Prop := s.agenda = [] ∨ ∃ rest, s.agenda = .complete :: rest

theorem step_of_completesNext {s : State} (h : s.CompletesNext) : step s = onComplete (s.setAgenda s.agenda.tail) := by
  obtain h | ⟨rest, h⟩ := h
  · have hsame : s.setAgenda s.agenda.tail = s := by
      rw [h, List.tail_nil, ← h]
      rfl
    rw [hsame, step_nil h]
  · rw [step_complete h, h, List.tail_cons]

/-- Host accesses pass by a pending command, so that its completion or a power-on reset comes next (R204, R230). -/
theorem State.Inv.pending_turn {s : State} (hs : s.Inv) (hb : s.busy = true) :
    ∃ n u, n ≤ s.agenda.length ∧ runSteps n s = .next u ∧ u.Inv ∧ s.Frozen u ∧
      (u.CompletesNext ∨ Event.powerOn ∈ s.agenda ∧ ∃ rest, u.agenda = .powerOn :: rest) := by
  induction ha : s.agenda generalizing s with
  | nil => exact ⟨0, s, Nat.le_refl _, rfl, hs, .refl s, .inl (.inl ha)⟩
  | cons e rest ih =>
    by_cases hc : e = .complete
    · exact ⟨0, s, Nat.zero_le _, rfl, hs, .refl s, .inl (.inr ⟨rest, hc ▸ ha⟩)⟩
    by_cases hp : e = .powerOn
    · exact ⟨0, s, Nat.zero_le _, rfl, hs, .refl s, .inr ⟨hp ▸ List.mem_cons_self, rest, hp ▸ ha⟩⟩
    obtain ⟨t, ht⟩ := hs.step_answers
    obtain ⟨hfrozen, hrest⟩ := step_busy_frozen hb ha hc hp ht
    obtain ⟨n, u, hn, hrun, hinv, hfrozen', hnext⟩ := ih (hs.step ht) (hfrozen.busy.trans hb) hrest
    exact ⟨n + 1, u, Nat.succ_le_succ hn, (runSteps_succ n ht).trans hrun, hinv, hfrozen.trans hfrozen',
      hnext.imp_right fun ⟨hmem, hpower⟩ => ⟨List.mem_cons_of_mem e hmem, hpower⟩⟩

theorem runSteps_snoc {s u t : State} {n : Nat} (hrun : runSteps n s = .next u) (hstep : step u = .next t) :
    runSteps (n + 1) s = .next t := by
  rw [runSteps_add n 1 hrun, runSteps_succ 0 hstep]
  rfl

end Sys2Proof.Machine

namespace Sys2Proof.Proofs
open Sys2Proof.Machine

/-- Settles O31: nothing is live, counted, recorded or pending. -/
theorem invariantAtPowerOn : Obligations.InvariantAtPowerOn := fun page es => State.inv_reset page es []

/-- Settles O32: each shape of what an event can do keeps the invariant; the pending command's admission carries its
completion. -/
theorem stepKeepsInvariant : Obligations.StepKeepsInvariant := fun _ _ hs h => State.Inv.step hs h

/-- Settles O33: host accesses always answer; a pending command passed admission, so it finds what it reads. -/
theorem invariantStepNeverStops : Obligations.InvariantStepNeverStops := fun _ hs => State.Inv.step_answers hs

/-- Settles O34: the invariant holds after power-on and carries every run. -/
theorem noHostSequenceStopsTheBlock : Obligations.NoHostSequenceStopsTheBlock := fun page n es =>
  State.Inv.safeRun (State.inv_reset page es []) n

/-- Settles O35: the accesses before the pending command's turn pass by; the turn is its completion, or power-on reset. -/
theorem pendingCommandCompletes : Obligations.PendingCommandCompletes := by
  intro s hs hb
  obtain ⟨n, u, hn, hrun, hu, hfrozen, hnext⟩ := State.Inv.pending_turn hs hb
  have hub : u.busy = true := hfrozen.busy.trans hb
  obtain ⟨t, c, i, hc, hi, hexec, hdone, ht⟩ := State.Inv.onComplete_pending (s := u.setAgenda u.agenda.tail) hu hub
  constructor
  · obtain hnext | ⟨-, rest, hpower⟩ := hnext
    · exact ⟨n + 1, t, Nat.succ_le_succ hn, runSteps_snoc hrun ((step_of_completesNext hnext).trans hdone), ht⟩
    · exact ⟨n + 1, _, Nat.succ_le_succ hn, runSteps_snoc hrun (step_cons hpower), rfl⟩
  · intro hno
    have hnext : u.CompletesNext := hnext.resolve_right fun ⟨hmem, _⟩ => hno hmem
    have hstep := step_of_completesNext hnext
    exact ⟨n, u, t, c, i, hn, hfrozen.pend.symm.trans hc, hi, hrun, hub, hc, hfrozen.hash, hfrozen.buf, hfrozen.cnt,
      hfrozen.din, hfrozen.live, hfrozen.mode, hstep.trans hexec, hstep.trans hdone, ht⟩

end Sys2Proof.Proofs
end

