-- ==== Sys2Proof/Proofs/BytesOfWords.lean ====
section
/-! PROOF. Bytes of words and of lanes (R10, R51, R52), and the zipper merge as a reordering of bytes (R103, R106). A word is
its eight bytes, `eq_of_byteOf_eq`, so both facts about the merge are checked byte by byte. -/

namespace Sys2Proof.Machine
open Sys2Proof.Laws

theorem byteOf_toNat (w : Word) (j : Nat) : (byteOf w j).toNat = w.toNat / 2 ^ (8 * j) % 256 := by
  simp [byteOf, Nat.shiftRight_eq_div_pow]

theorem eq_of_byteOf_eq {w v : Word} (h : ∀ j < 8, byteOf w j = byteOf v j) : w = v := by
  have hbytes : wordBytes w = wordBytes v := List.map_congr_left fun j hj => h j (List.mem_range.1 hj)
  rw [← leWord_wordBytes w, hbytes, leWord_wordBytes]

/-! ## Lanes of a block -/

theorem Lanes.ext_get {a b : Lanes} (h : ∀ i, a.get i = b.get i) : a = b := by
  have h0 : a.l0 = b.l0 := h 0
  have h1 : a.l1 = b.l1 := h 1
  have h2 : a.l2 = b.l2 := h 2
  have h3 : a.l3 = b.l3 := h 3
  cases a
  cases b
  simp_all

theorem lanesOf_get (b : List Byte) (i : Fin 4) : (lanesOf b).get i = le64 b (8 * i.val) := by
  fin_cases i <;> rfl

theorem laneByte_eq (v : Lanes) {k : Nat} (hk : k / 8 < 4) : laneByte v k = byteOf (v.get ⟨k / 8, hk⟩) (k % 8) := by
  have hlane : Fin.ofNat 4 (k / 8) = ⟨k / 8, hk⟩ := Fin.ext (Nat.mod_eq_of_lt hk)
  rw [laneByte, hlane]

/-- Byte j of the 64-bit word at offset o is the block's byte o + j (R10). -/
theorem byteOf_le64 (b : List Byte) (o : Nat) {j : Nat} (hj : j < 8) : byteOf (le64 b o) j = b.getD (o + j) 0 := by
  rw [le64, byteOf_leWord _ j hj]
  simp [List.getD_eq_getElem?_getD, hj]

theorem laneByte_lanesOf (b : List Byte) {k : Nat} (hk : k < 32) : laneByte (lanesOf b) k = b.getD k 0 := by
  have hlane : k / 8 < 4 := by omega
  rw [laneByte_eq _ hlane, lanesOf_get, byteOf_le64 _ _ (Nat.mod_lt _ (by decide)), Nat.div_add_mod]

theorem laneBytes_lanesOf {b : List Byte} (hb : b.length = 32) : laneBytes (lanesOf b) 32 = b := by
  apply List.ext_getElem
  · rw [laneBytes_length, hb]
  · intro k hk hk'
    have h32 : k < 32 := hb ▸ hk'
    simp [laneBytes, laneByte_lanesOf b h32, hk']

theorem lanesOf_laneBytes (v : Lanes) : lanesOf (laneBytes v 32) = v := by
  apply Lanes.ext_get
  intro i
  rw [lanesOf_get]
  apply eq_of_byteOf_eq
  intro j hj
  have h32 : 8 * i.val + j < 32 := by omega
  have hlane : (8 * i.val + j) / 8 = i.val := by omega
  have hbyte : (8 * i.val + j) % 8 = j := by omega
  have h4 : (8 * i.val + j) / 8 < 4 := by omega
  rw [byteOf_le64 _ _ hj]
  simp [laneBytes, h32, laneByte_eq v h4, hlane, hbyte]

/-! ## The zipper merge -/

/-- Byte p of (hi : lo), for p = 0..15 (R103). -/
def pairByte (hi lo : Word) (p : Nat) : Byte := if p < 8 then byteOf lo p else byteOf hi (p - 8)

theorem byteOf_zipperMerge_fst (hi lo : Word) {j p : Nat} (hj : j < 8) (hp : zipTable[j]? = some p) :
    byteOf (zipperMerge hi lo).1 j = pairByte hi lo p := by
  rw [zipperMerge, byteOf_leWord _ j hj]
  simp [List.getD_eq_getElem?_getD, hj, hp, pairByte]

theorem byteOf_zipperMerge_snd (hi lo : Word) {j q : Nat} (hj : j < 8) (hq : zipTable[8 + j]? = some q) :
    byteOf (zipperMerge hi lo).2 j = pairByte hi lo q := by
  rw [zipperMerge, byteOf_leWord _ j hj]
  simp [List.getD_eq_getElem?_getD, hq, pairByte]

/-! ## Bytes of the scalar form's operations -/

theorem byteOf_or (w v : Word) (j : Nat) : byteOf (w ||| v) j = byteOf w j ||| byteOf v j := BitVec.extractLsb'_or

/-- Byte j of a masked word: the byte, masked with byte j of the mask. -/
theorem byteOf_and_mask (w : Word) (m j : Nat) :
    byteOf (w &&& BitVec.ofNat 64 m) j = byteOf w j &&& BitVec.ofNat 8 (m % 2 ^ 64 / 2 ^ (8 * j)) := by
  have hmask : byteOf (BitVec.ofNat 64 m) j = BitVec.ofNat 8 (m % 2 ^ 64 / 2 ^ (8 * j)) := by
    apply BitVec.eq_of_toNat_eq
    rw [byteOf_toNat, BitVec.toNat_ofNat, BitVec.toNat_ofNat]
  rw [← hmask]
  exact BitVec.extractLsb'_and

/-- A mask of ones keeps the byte. -/
theorem byte_and_ones (b : Byte) : b &&& 0xFF#8 = b := BitVec.and_allOnes

/-- A right shift by whole bytes. -/
theorem byteOf_ushiftRight (w : Word) {s : Nat} (hs : s % 8 = 0) (j : Nat) :
    byteOf (w >>> s) j = byteOf w (s / 8 + j) := by
  apply BitVec.eq_of_getLsbD_eq
  intro k hk
  have hbit : s + (8 * j + k) = 8 * (s / 8 + j) + k := by omega
  simp [byteOf, hk, hbit]

/-- A left shift by whole bytes. -/
theorem byteOf_shiftLeft (w : Word) {s j : Nat} (hs : s % 8 = 0) (hj : j < 8) :
    byteOf (w <<< s) j = if j < s / 8 then 0 else byteOf w (j - s / 8) := by
  apply BitVec.eq_of_getLsbD_eq
  intro k hk
  have h64 : 8 * j + k < 64 := by omega
  split
  case isTrue hlow =>
    have hbit : 8 * j + k < s := by omega
    simp [byteOf, hbit]
  case isFalse hhigh =>
    have hge : ¬ 8 * j + k < s := by omega
    have hbit : 8 * j + k - s = 8 * (j - s / 8) + k := by omega
    simp only [byteOf, BitVec.getLsbD_extractLsb', BitVec.getLsbD_shiftLeft, h64, hge, hbit, decide_true, decide_false,
      Bool.not_false, Bool.true_and]

end Sys2Proof.Machine

namespace Sys2Proof.Proofs
open Sys2Proof.Machine

/-- Settles O37: a lane is the eight bytes it is read from, in both directions. -/
theorem bytesOfABlockAreItsLanes : Obligations.BytesOfABlockAreItsLanes := by
  refine ⟨fun b => laneBytes_lanesOf, lanesOf_laneBytes, fun v k => ?_, fun w j _ => byteOf_toNat w j⟩
  rw [laneByte_eq v (by omega), byteOf_toNat]

/-- Settles O38: the result words are read from the table row by row. -/
theorem zipperMergeReordersBytes : Obligations.ZipperMergeReordersBytes := fun hi lo _ hj _ _ hp hq =>
  ⟨byteOf_zipperMerge_fst hi lo hj hp, byteOf_zipperMerge_snd hi lo hj hq⟩

/-- Settles O39: at each byte the masks and shifts of the scalar form leave one term, the source byte of the table. -/
theorem zipperMergeEqualsScalarForm : Obligations.ZipperMergeEqualsScalarForm := by
  intro v1 v0
  refine Prod.ext (eq_of_byteOf_eq fun j hj => ?_) (eq_of_byteOf_eq fun j hj => ?_)
  · interval_cases j <;> rw [byteOf_zipperMerge_fst v1 v0 (by decide) rfl] <;>
      simp [pairByte, byteOf_or, byteOf_and_mask, byteOf_ushiftRight, byteOf_shiftLeft, byte_and_ones]
  · interval_cases j <;> rw [byteOf_zipperMerge_snd v1 v0 (by decide) rfl] <;>
      simp [pairByte, byteOf_or, byteOf_and_mask, byteOf_ushiftRight, byteOf_shiftLeft, byte_and_ones]

end Sys2Proof.Proofs
end

