-- ==== Sys2Proof/Proofs/RoundArithmetic.lean ====
section
/-! PROOF. The round function and the permutation lane by lane, in numbers (R104, R105, R120, R121), and the length perturbation
(R123). -/

namespace Sys2Proof.Machine

/-! ## Step 1 of Update -/

theorem mixLanes_lane (h : HashState) (lanes : Lanes) (i : Fin 4) :
    (mixLanes h lanes).lane i = mixLane (h.lane i) (lanes.get i) := by fin_cases i <;> rfl

/-- The product of two halves is exact (R105). -/
theorem mulLowHigh_toNat (x y : Word) : (mulLowHigh x y).toNat = x.toNat % 2 ^ 32 * (y.toNat / 2 ^ 32) := by
  have hlow : ((low32 x).setWidth 64).toNat = x.toNat % 2 ^ 32 := by
    simp only [low32, BitVec.toNat_setWidth, BitVec.extractLsb'_toNat, Nat.shiftRight_eq_div_pow]
    omega
  have hhigh : ((high32 y).setWidth 64).toNat = y.toNat / 2 ^ 32 := by
    simp only [high32, BitVec.toNat_setWidth, BitVec.extractLsb'_toNat, Nat.shiftRight_eq_div_pow]
    omega
  have hx : x.toNat % 2 ^ 32 ≤ 2 ^ 32 - 1 := by omega
  have hy : y.toNat / 2 ^ 32 ≤ 2 ^ 32 - 1 := by omega
  rw [mulLowHigh, BitVec.toNat_mul, hlow, hhigh]
  exact Nat.mod_eq_of_lt (Nat.lt_of_le_of_lt (Nat.mul_le_mul hx hy) (by decide))

/-- The largest product of two halves (R105). -/
theorem halves_mul_le (x y : Word) : x.toNat % 2 ^ 32 * (y.toNat / 2 ^ 32) ≤ 0xFFFFFFFE00000001 :=
  have hx : x.toNat % 2 ^ 32 ≤ 2 ^ 32 - 1 := by omega
  have hy : y.toNat / 2 ^ 32 ≤ 2 ^ 32 - 1 := by omega
  Nat.mul_le_mul hx hy

/-- The four statements of step 1, each in the values before and after it. -/
theorem mixLane_toNat (a : LaneState) (lane : Word) :
    (mixLane a lane).v1.toNat = (a.v1.toNat + a.mul0.toNat + lane.toNat) % 2 ^ 64 ∧
    (mixLane a lane).mul0.toNat =
      a.mul0.toNat ^^^ ((mixLane a lane).v1.toNat % 2 ^ 32 * (a.v0.toNat / 2 ^ 32)) ∧
    (mixLane a lane).v0.toNat = (a.v0.toNat + a.mul1.toNat) % 2 ^ 64 ∧
    (mixLane a lane).mul1.toNat =
      a.mul1.toNat ^^^ ((mixLane a lane).v0.toNat % 2 ^ 32 * ((mixLane a lane).v1.toNat / 2 ^ 32)) := by
  refine ⟨?_, ?_, BitVec.toNat_add .., ?_⟩
  · simp only [mixLane, BitVec.toNat_add, Nat.mod_add_mod]
  · rw [← mulLowHigh_toNat]
    exact BitVec.toNat_xor ..
  · rw [← mulLowHigh_toNat]
    exact BitVec.toNat_xor ..

/-! ## Permute -/

theorem low32_append (a b : BitVec 32) : low32 (a ++ b) = b := BitVec.extractLsb'_append_eq_right

theorem high32_append (a b : BitVec 32) : high32 (a ++ b) = a := BitVec.extractLsb'_append_eq_left

theorem swap32_swap32 (x : Word) : swap32 (swap32 x) = x := by
  apply BitVec.eq_of_getLsbD_eq
  intro k hk
  have happ : ∀ a b : BitVec 32, (a ++ b).getLsbD k = if k < 32 then b.getLsbD k else a.getLsbD (k - 32) :=
    fun _ _ => BitVec.getLsbD_append
  rw [swap32_eq_append x, swap32_eq_append, low32_append, high32_append, happ]
  split
  case isTrue hlow => exact low32_getLsbD x hlow
  case isFalse hhigh => rw [high32_getLsbD x (by omega), Nat.add_sub_cancel' (by omega)]

theorem permute_get (v : Lanes) (i : Fin 4) : (permute v).get (i + 2) = swap32 (v.get i) := by
  fin_cases i <;> rfl

theorem permute_permute (v : Lanes) : permute (permute v) = v := by
  simp only [permute, swap32_swap32]

/-! ## The length perturbation -/

theorem lengthWord_toNat {n : Nat} (hn : n ≤ 31) : (lengthWord n).toNat = n * 2 ^ 32 + n := by
  simp only [lengthWord, BitVec.toNat_add, BitVec.toNat_shiftLeft, BitVec.toNat_ofNat, Nat.shiftLeft_eq]
  omega

/-- The count below bit 32 and the count above it have no bit in common, so their sum is their union (R123). -/
theorem lengthWord_eq_or {n : Nat} (hn : n ≤ 31) : lengthWord n = (BitVec.ofNat 64 n <<< 32) ||| BitVec.ofNat 64 n := by
  apply BitVec.add_eq_or_of_and_eq_zero
  apply BitVec.eq_of_getLsbD_eq
  intro k hk
  by_cases hlow : k < 32
  · simp [hlow]
  · have hpow : n < 2 ^ k := Nat.lt_of_le_of_lt hn (Nat.lt_of_lt_of_le (by decide) (Nat.pow_le_pow_right (by decide)
      (Nat.not_lt.1 hlow)))
    have hclear : (BitVec.ofNat 64 n).getLsbD k = false := by
      rw [BitVec.getLsbD_ofNat, Nat.testBit_lt_two_pow hpow, Bool.and_false]
    simp [hclear]

theorem perturb_v0_get (h : HashState) (n : Nat) (i : Fin 4) : (perturb h n).v0.get i = h.v0.get i + lengthWord n := by
  fin_cases i <;> rfl

theorem perturb_v1_get (h : HashState) (n : Nat) (i : Fin 4) : (perturb h n).v1.get i = rotate32By n (h.v1.get i) := by
  fin_cases i <;> rfl

end Sys2Proof.Machine

namespace Sys2Proof.Proofs
open Sys2Proof.Machine

/-- Settles O40: each lane position is one `mixLane`, and the products are of two halves. -/
theorem roundMixesLanesExactly : Obligations.RoundMixesLanesExactly := by
  intro h lanes i m
  obtain ⟨hv1, hmul0, hv0, hmul1⟩ := mixLane_toNat (h.lane i) (lanes.get i)
  rw [← mixLanes_lane] at hv1 hmul0 hv0 hmul1
  exact ⟨hv1, hmul0, hv0, hmul1, halves_mul_le _ _, halves_mul_le _ _⟩

/-- Settles O41: the pairs are the halves `zipInto` merges, in the order of `update`. -/
theorem roundMergesHalves : Obligations.RoundMergesHalves := fun _ _ =>
  ⟨rfl, rfl, rfl, rfl, rfl, rfl, rfl, rfl, rfl, rfl⟩

/-- Settles O42: a position at a time; the half-swap is its own inverse. -/
theorem permuteMovesHalfSwappedLanes : Obligations.PermuteMovesHalfSwappedLanes :=
  ⟨fun v => ⟨fun i => (permute_get v i).trans (swap32_eq_append _), permute_permute v⟩, fun _ => rfl⟩

/-- Settles O44: the added word in numbers, and as a union of two disjoint ones. -/
theorem lengthPerturbationBindsTheCount : Obligations.LengthPerturbationBindsTheCount := by
  intro h n _ hn
  refine ⟨fun i => ⟨?_, perturb_v1_get h n i⟩, rfl, rfl, lengthWord_eq_or hn⟩
  rw [perturb_v0_get, BitVec.toNat_add, lengthWord_toNat hn]

end Sys2Proof.Proofs
end

