-- ==== Sys2Proof/Proofs/RemainderAndReduction.lean ====
section
/-! PROOF. Where the bytes of a remainder go (R124), and the modular reduction as a remainder of polynomials (R148). -/

namespace Sys2Proof.Machine

/-! ## PackRemainder -/

theorem place_length {packet bs : List Byte} {o : Nat} (h : o + bs.length ≤ packet.length) :
    (place packet o bs).length = packet.length := by
  simp only [place, List.length_append, List.length_take, List.length_drop]
  omega

/-- A byte of the packet after a placement: a placed one, or the one that was there. -/
theorem place_getD {packet bs : List Byte} {o : Nat} (h : o + bs.length ≤ packet.length) (k : Nat) :
    (place packet o bs).getD k 0 =
      if o ≤ k ∧ k < o + bs.length then bs.getD (k - o) 0 else packet.getD k 0 := by
  simp only [place, List.getD_eq_getElem?_getD, List.getElem?_append, List.length_append, List.length_take,
    List.getElem?_take, List.getElem?_drop]
  grind

theorem getD_take (b : List Byte) (m k : Nat) : (b.take m).getD k 0 = if k < m then b.getD k 0 else 0 := by
  simp only [List.getD_eq_getElem?_getD, List.getElem?_take]
  split <;> rfl

theorem getD_drop (b : List Byte) (m k : Nat) : (b.drop m).getD k 0 = b.getD (m + k) 0 := by
  simp only [List.getD_eq_getElem?_getD, List.getElem?_drop]

/-- The packet with the whole 4-byte groups of the remainder at its start, zeros after them. -/
def groupPacket (b : List Byte) : List Byte :=
  place (List.replicate 32 0) 0 (b.take (b.length - b.length % 4))

theorem groupPacket_length {b : List Byte} (hb : b.length ≤ 31) : (groupPacket b).length = 32 := by
  rw [groupPacket, place_length (by simp; omega), List.length_replicate]

theorem groupPacket_getD {b : List Byte} (hb : b.length ≤ 31) (k : Nat) :
    (groupPacket b).getD k 0 = if k < b.length - b.length % 4 then b.getD k 0 else 0 := by
  have hzero : (List.replicate 32 (0 : Byte)).getD k 0 = 0 := by
    simp only [List.getD_eq_getElem?_getD, List.getElem?_replicate]
    split <;> rfl
  rw [groupPacket, place_getD (by simp; omega), getD_take, hzero, Nat.sub_zero, List.length_take]
  grind

/-- PackRemainder puts the last four bytes, three picked ones, or nothing after the groups (R124). -/
theorem packRemainder_eq (b : List Byte) :
    packRemainder b =
      if 16 ≤ b.length then place (groupPacket b) 28 (b.drop (b.length - 4))
      else if b.length % 4 ≠ 0 then
        place (groupPacket b) 16 [b.getD (b.length - b.length % 4) 0,
          b.getD (b.length - b.length % 4 + b.length % 4 / 2) 0, b.getD (b.length - b.length % 4 + b.length % 4 - 1) 0]
      else groupPacket b := rfl

theorem packRemainder_length {b : List Byte} (hb : b.length ≤ 31) : (packRemainder b).length = 32 := by
  have hgroup := groupPacket_length hb
  rw [packRemainder_eq]
  split
  case isTrue hlong => rw [place_length (by simp; omega), hgroup]
  split
  · rw [place_length (by simp; omega), hgroup]
  · exact hgroup

/-! ## ModularReduction -/

/-- A carry-less product is the sum of one shifted operand for each set bit of the other. -/
theorem clmul_eq_of_bits {p : BitVec 256} {bits : List Nat} (hp : (List.range 256).filter p.getLsbD = bits)
    (q : BitVec 256) : clmul p q = bits.foldl (fun acc k => acc ^^^ (q <<< k)) 0 := by
  rw [← hp, List.foldl_filter]
  rfl

/-- Multiplying by x^128 + x^2 + x. -/
theorem clmul_modulus (q : BitVec 256) :
    clmul (1#256 <<< 128 ||| 1#256 <<< 2 ||| 1#256 <<< 1) q = q <<< 1 ^^^ q <<< 2 ^^^ q <<< 128 := by
  have hbits : (List.range 256).filter (1#256 <<< 128 ||| 1#256 <<< 2 ||| 1#256 <<< 1 : BitVec 256).getLsbD = [1, 2, 128] := by
    decide +kernel
  rw [clmul_eq_of_bits hbits]
  simp

/-- The mask of the reduction keeps the low 62 bits (R142). -/
theorem and_reductionMask (a : Word) : a &&& reductionMask = (a.extractLsb' 0 62).setWidth 64 := by
  apply BitVec.eq_of_getLsbD_eq
  intro k hk
  have hmask : reductionMask.getLsbD k = decide (k < 62) := by
    have hbits : ∀ k : Fin 64, reductionMask.getLsbD k.val = decide (k.val < 62) := by decide
    exact hbits ⟨k, hk⟩
  simp only [BitVec.getLsbD_and, BitVec.getLsbD_setWidth, BitVec.getLsbD_extractLsb', hmask, hk, decide_true,
    Bool.true_and, Nat.zero_add, Bool.and_comm]

/-- Four words as one 256-bit polynomial, the highest first. -/
def quad (a b c d : Word) : BitVec 256 := a ++ b ++ c ++ d

theorem quad_getLsbD (a b c d : Word) (k : Nat) :
    (quad a b c d).getLsbD k =
      if k < 64 then d.getLsbD k else if k < 128 then c.getLsbD (k - 64) else if k < 192 then b.getLsbD (k - 128)
      else a.getLsbD (k - 192) := by
  have happ : (quad a b c d).getLsbD k = (a ++ b ++ c ++ d : BitVec (64 + 64 + 64 + 64)).getLsbD k := rfl
  rw [happ]
  simp only [BitVec.getLsbD_append]
  grind

theorem quad_xor (a b c d a' b' c' d' : Word) :
    quad a b c d ^^^ quad a' b' c' d' = quad (a ^^^ a') (b ^^^ b') (c ^^^ c') (d ^^^ d') := by
  apply BitVec.eq_of_getLsbD_eq
  intro k _
  simp only [BitVec.getLsbD_xor, quad_getLsbD]
  split_ifs <;> rfl

theorem setWidth_pair (a b : Word) : (a ++ b : BitVec 128).setWidth 256 = quad 0 0 a b := by
  apply BitVec.eq_of_getLsbD_eq
  intro k hk
  have happ : (a ++ b : BitVec 128).getLsbD k = if k < 64 then b.getLsbD k else a.getLsbD (k - 64) := BitVec.getLsbD_append
  rw [BitVec.getLsbD_setWidth, happ, quad_getLsbD]
  by_cases hlow : k < 64
  · simp [hlow, hk]
  by_cases hmid : k < 128
  · simp [hlow, hmid, hk]
  · have hpast : a.getLsbD (k - 64) = false := BitVec.getLsbD_of_ge _ _ (by omega)
    simp [hlow, hmid, hpast]

theorem quad_shiftLeft_128 (a b : Word) : quad 0 0 a b <<< 128 = quad a b 0 0 := by
  apply BitVec.eq_of_getLsbD_eq
  intro k hk
  rw [BitVec.getLsbD_shiftLeft, quad_getLsbD, quad_getLsbD]
  grind

/-- Multiplying a polynomial of degree below 126 by x or x^2 stays within two words. -/
theorem quad_shiftLeft {a b : Word} {c : Nat} (hc : c ≤ 2) (hdeg : ∀ i, 62 ≤ i → a.getLsbD i = false) :
    quad 0 0 a b <<< c = quad 0 0 (a <<< c ||| b >>> (64 - c)) (b <<< c) := by
  apply BitVec.eq_of_getLsbD_eq
  intro k hk
  rw [BitVec.getLsbD_shiftLeft, quad_getLsbD, quad_getLsbD]
  simp only [BitVec.getLsbD_or, BitVec.getLsbD_shiftLeft, BitVec.getLsbD_ushiftRight]
  by_cases hlow : k < 64
  · have hsrc : k - c < 64 := by omega
    simp [hlow, hk, hsrc]
  by_cases hcarry : k - c < 64
  · have hmid : k < 128 := by omega
    have hfirst : k - 64 < c := by omega
    have hbit : 64 - c + (k - 64) = k - c := by omega
    have hlater : ¬ k < c := by omega
    simp only [hlow, hmid, hk, hcarry, hfirst, hbit, hlater, if_true, if_false, decide_true, decide_false, Bool.not_true,
      Bool.not_false, Bool.and_false, Bool.false_and, Bool.true_and, Bool.false_or]
  · have hpast : b.getLsbD (64 - c + (k - 64)) = false := BitVec.getLsbD_of_ge _ _ (by omega)
    have hlater : ¬ k < c := by omega
    by_cases hmid : k < 128
    · have hsrc : k - c < 128 := by omega
      have hpos : ¬ k - 64 < c := by omega
      have h64 : k - 64 < 64 := by omega
      have hbit : k - c - 64 = k - 64 - c := by omega
      simp [hlow, hk, hcarry, hpast, hlater, hmid, hsrc, hpos, h64, hbit]
    · have htop : a.getLsbD (k - c - 64) = false := hdeg _ (by omega)
      simp [hlow, hk, hcarry, hlater, hmid, htop]

theorem xor_xor_cancel (x y a : Word) : x ^^^ y ^^^ 0 ^^^ (a ^^^ x ^^^ y) = a := by
  apply BitVec.eq_of_getLsbD_eq
  intro k _
  simp only [BitVec.getLsbD_xor, BitVec.getLsbD_zero, BitVec.ofNat_eq_ofNat]
  cases x.getLsbD k <;> cases y.getLsbD k <;> cases a.getLsbD k <;> rfl

/-- The quotient (a3 : a2) times the modulus, and the remainder (R148). -/
theorem modularReduction_remainder {a3u a3 : Word} (a2 a1 a0 : Word) (ha3 : a3u &&& reductionMask = a3)
    (hdeg : ∀ i, 62 ≤ i → a3.getLsbD i = false) :
    quad a3 a2 a1 a0 =
      clmul (1#256 <<< 128 ||| 1#256 <<< 2 ||| 1#256 <<< 1) ((a3 ++ a2 : BitVec 128).setWidth 256) ^^^
        ((modularReduction a3u a2 a1 a0).1 ++ (modularReduction a3u a2 a1 a0).2 : BitVec 128).setWidth 256 := by
  rw [clmul_modulus, setWidth_pair, setWidth_pair, quad_shiftLeft_128, quad_shiftLeft (by decide) hdeg,
    quad_shiftLeft (by decide) hdeg, quad_xor, quad_xor, quad_xor, modularReduction, ha3]
  congr 1
  · simp
  · simp
  · exact (xor_xor_cancel _ _ a1).symm
  · exact (xor_xor_cancel _ _ a0).symm

end Sys2Proof.Machine

namespace Sys2Proof.Proofs
open Sys2Proof.Machine

/-- Settles O45: the offsets one by one region; a placement decides its own region and leaves the groups elsewhere. -/
theorem packRemainderPlacesEachByte : Obligations.PackRemainderPlacesEachByte := by
  intro b h1 h31 n m base
  have hgroup := groupPacket_length h31
  refine ⟨packRemainder_length h31, fun k hk => ?_⟩
  rw [packRemainder_eq]
  split
  case isTrue hlong =>
    rw [place_getD (by simp; omega), groupPacket_getD h31, getD_drop, List.length_drop]
    grind
  case isFalse hshort =>
    split
    case isTrue hm =>
      rw [place_getD (by simp; omega), groupPacket_getD h31]
      obtain rfl | rfl | rfl | hout : k = 16 ∨ k = 17 ∨ k = 18 ∨ ¬ (16 ≤ k ∧ k < 16 + 3) := by omega
      all_goals grind
    case isFalse hm =>
      rw [groupPacket_getD h31]
      grind

/-- Settles O46: shifting the quotient by 128, 2 and 1 and adding the remainder's words restores the four words. -/
theorem modularReductionIsThePolynomialRemainder : Obligations.ModularReductionIsThePolynomialRemainder := by
  intro a3u a2 a1 a0 a3 m
  have ha3 : a3u &&& reductionMask = a3 := and_reductionMask a3u
  have hdeg : ∀ i, 62 ≤ i → a3.getLsbD i = false := by
    intro i hi
    have hpast : ¬ i < 62 := by omega
    simp [a3, hpast]
  refine ⟨modularReduction_remainder a2 a1 a0 ha3 hdeg, ?_⟩
  have hmasked : a3 &&& reductionMask = a3 := by rw [← ha3, BitVec.and_assoc, BitVec.and_self]
  simp only [m, modularReduction, hmasked, ha3]

end Sys2Proof.Proofs
end

