-- ==== Sys2Proof/Proofs/Operands.lean ====
section
/-! PROOF. What a completion reads and when its result is seen: the bytes of DIN past LEN are not read (R28, D27), and OUT
changes at the completion turn and not before (R29, R204). -/

namespace Sys2Proof.Machine
open Sys2Proof.Laws

/-! ## DIN past LEN -/

/-- The state with other values in DIN. -/
def State.withDin (s : State) (d : Lanes) : State := { s with din := d }

@[simp] theorem State.withDin_err (s : State) (d : Lanes) : (s.withDin d).err = s.err := rfl
@[simp] theorem State.withDin_live (s : State) (d : Lanes) : (s.withDin d).live = s.live := rfl
@[simp] theorem State.withDin_mode (s : State) (d : Lanes) : (s.withDin d).mode = s.mode := rfl

theorem State.record_withDin (s : State) (d : Lanes) (code : ErrCode) :
    (s.withDin d).record code = (s.record code).withDin d := by
  unfold record
  rw [withDin_err]
  split <;> rfl

theorem admission_withDin (i : Instr) (s : State) (d : Lanes) :
    admission i (s.withDin d) = (admission i s).withDin d := by
  unfold admission
  simp only [State.withDin_err, State.withDin_live, State.withDin_mode, State.record_withDin]
  split_ifs <;> rfl

theorem laneBytes_congr {v v' : Lanes} {n : Nat} (h : ∀ k < n, laneByte v k = laneByte v' k) :
    laneBytes v n = laneBytes v' n :=
  List.map_congr_left fun k hk => h k (List.mem_range.1 hk)

theorem completeUpdateRemainder_withDin {s t : State} {d : Lanes} {len : Nat} (hd : laneBytes d len = laneBytes s.din len)
    (h : completeUpdateRemainder len s = .next t) :
    completeUpdateRemainder len (s.withDin d) = .next (t.withDin d) := by
  obtain ⟨x, hx, h⟩ := withLanes_next h
  cases h
  rw [← hd]
  exact withLanes_some (s := s.withDin d) hx _

theorem completeCatAppend_withDin {s t : State} {d : Lanes} {len : Nat} (hd : laneBytes d len = laneBytes s.din len)
    (h : completeCatAppend len s = .next t) :
    completeCatAppend len (s.withDin d) = .next (t.withDin d) := by
  obtain ⟨x, hx, h⟩ := withLanes_next h
  rw [← hd] at h
  split at h
  · cases h
  · cases h
    exact appendBytes_some (s := s.withDin d) hx ‹_›

/-- A command whose completion reads only the first bytes of DIN reads no more in either phase: admission reads none. -/
theorem exec_withDin {i : Instr} {s t : State} {d : Lanes}
    (hdone : completion i s = .next t → completion i (s.withDin d) = .next (t.withDin d))
    (h : exec i s = .next t) : exec i (s.withDin d) = .next (t.withDin d) := by
  cases hb : s.busy with
  | true =>
    rw [exec_busy i s hb] at h
    rw [exec_busy i (s.withDin d) hb, hdone h]
  | false =>
    rw [exec_idle i s hb] at h
    cases h
    rw [exec_idle i (s.withDin d) hb, admission_withDin]

/-! ## OUT around the completion turn -/

/-- The step of a read of OUTk (R54). -/
theorem step_rd_out {s : State} (k : Fin 4) {rest : List Event} (ha : s.agenda = rd s.hhBase (0x20 + 8 * k.val) :: rest) :
    step s = .next ((s.setAgenda rest).logRead (s.out.get k)) := by
  have hvalue : windowValue s (0x20 + 8 * k.val) = s.out.get k := windowValue_offset s (.out k)
  rw [step_rd (by omega) (by omega) ha, hvalue]

/-- A completion leaves HH_BASE, the agenda and the values read. -/
theorem completed_surroundings {i : Instr} {s t : State} (h : Completed i s t) :
    t.hhPage = s.hhPage ∧ t.agenda = s.agenda ∧ t.reads = s.reads := by
  cases h <;> exact ⟨rfl, rfl, rfl⟩

/-- The completion of a result command writes its words to OUT (R145, R174). -/
theorem exec_of_resultOf {i : Instr} {s : State} {o : Lanes} (hb : s.busy = true) (ho : ResultOf i s o) :
    ∃ t, exec i s = .next t ∧ t.out = o := by
  rw [exec_busy i s hb]
  cases i with
  | finalize64 =>
    obtain ⟨h, hs, rfl⟩ := ho
    exact ⟨_, finalizeWith_some hs _, outLayout64_fin64 h⟩
  | finalize128 =>
    obtain ⟨h, hs, rfl⟩ := ho
    exact ⟨_, finalizeWith_some hs _, outLayout128_fin128 h⟩
  | finalize256 =>
    obtain ⟨h, hs, rfl⟩ := ho
    exact ⟨_, finalizeWith_some hs _, fin256_eq h⟩
  | catFinish64 =>
    obtain ⟨h, xs, hs, hx, rfl⟩ := ho
    exact ⟨_, finishWith_some hs hx _, outLayout64_fin64 _⟩
  | catFinish128 =>
    obtain ⟨h, xs, hs, hx, rfl⟩ := ho
    exact ⟨_, finishWith_some hs hx _, outLayout128_fin128 _⟩
  | catFinish256 =>
    obtain ⟨h, xs, hs, hx, rfl⟩ := ho
    exact ⟨_, finishWith_some hs hx _, fin256_eq _⟩
  | _ => exact ho.elim

theorem wf_of_resultOf {i : Instr} {s : State} {o : Lanes} (ho : ResultOf i s o) : i.wf = true := by
  cases i with
  | updateRemainder len => exact ho.elim
  | catAppend len => exact ho.elim
  | _ => rfl

/-- A completion turn does what the pending command does to the block, ends BUSY, and leaves the surroundings (R204). -/
theorem onComplete_exec {s t : State} {i : Instr} (hb : s.busy = true) (hp : s.pend = some (encode i)) (hwf : i.wf = true)
    (hexec : exec i s = .next t) :
    onComplete s = .next t ∧ t.busy = false ∧ t.hhBase = s.hhBase ∧ t.agenda = s.agenda ∧ t.reads = s.reads := by
  have hdone := exec_busy_completed hb hexec
  obtain ⟨hpage, hagenda, hreads⟩ := completed_surroundings hdone
  exact ⟨(onComplete_busy hb hp (decode_cmdWrite_encode hwf)).trans hexec, completed_busy hdone,
    congrArg (Config.windowBytes * ·) hpage, hagenda, hreads⟩

/-- A read of OUT after the turn of the pending command returns the new word. -/
theorem complete_then_read {s : State} {i : Instr} {o : Lanes} (k : Fin 4) {rest : List Event} (hb : s.busy = true)
    (hp : s.pend = some (encode i)) (ho : ResultOf i s o)
    (ha : s.agenda = .complete :: rd s.hhBase (0x20 + 8 * k.val) :: rest) :
    ∃ t, runSteps 2 s = .next t ∧ t.reads = o.get k :: s.reads := by
  obtain ⟨u, hexec, hout⟩ := exec_of_resultOf (s := s.setAgenda (rd s.hhBase (0x20 + 8 * k.val) :: rest)) hb ho
  obtain ⟨hturn, -, hbase, hagenda, hreads⟩ :=
    onComplete_exec (s := s.setAgenda (rd s.hhBase (0x20 + 8 * k.val) :: rest)) hb hp (wf_of_resultOf ho) hexec
  have hrun := runSteps_snoc (runSteps_succ 0 ((step_complete ha).trans hturn)) (step_rd_out k (hbase ▸ hagenda))
  refine ⟨_, hrun, ?_⟩
  rw [State.logRead_reads, State.setAgenda_reads, hreads, hout, State.setAgenda_reads]

end Sys2Proof.Machine

namespace Sys2Proof.Proofs
open Sys2Proof.Machine

/-- Settles O47: both commands take their bytes from `laneBytes`, which agrees on the two states. -/
theorem unusedDinBytesAreIgnored : Obligations.UnusedDinBytesAreIgnored := by
  intro s t d len hbytes
  have hd : laneBytes d len = laneBytes s.din len := laneBytes_congr hbytes
  exact ⟨exec_withDin (completeUpdateRemainder_withDin hd), exec_withDin (completeCatAppend_withDin hd)⟩

/-- Settles O36: a read before the turn logs the old word and leaves the command pending on what it reads. -/
theorem resultHazardOldOrNew : Obligations.ResultHazardOldOrNew := by
  intro s i o j k rest hb hp ho
  refine ⟨fun ha => ?_, complete_then_read k hb hp ho⟩
  obtain ⟨t, hrun, hreads⟩ := complete_then_read k
    (s := (s.setAgenda (.complete :: rd s.hhBase (0x20 + 8 * k.val) :: rest)).logRead (s.out.get j)) hb hp ho rfl
  exact ⟨t, (runSteps_succ 2 (step_rd_out j ha)).trans hrun, hreads⟩

end Sys2Proof.Proofs
end

