-- ==== Sys2Proof/Proofs/HostSequences.lean ====
section
/-! PROOF. The host sequences of R162 and R178 compute the reference hash. A part of a sequence is described by what it does
to the registers (`Runs`), whatever events follow and whatever the host has read; the parts are composed, and the recursion
over blocks and over chunks is an induction with the lanes, or the string appended so far, in the assertion. -/

namespace Sys2Proof.Machine
open Sys2Proof.Laws

/-! ## Registers of an idle block, and runs of a part of the agenda -/

/-- The registers the sequences are about: those of the block without BUSY, PEND and ERRCODE. -/
structure View where
  err : Bool
  live : Bool
  mode : Mode
  hash : Option HashState
  buf : Vector (Option Byte) 32
  cnt : BitVec 5
  din : Lanes
  out : Lanes

def State.view (s : State) : View := ⟨s.err, s.live, s.mode, s.hash, s.buf, s.cnt, s.din, s.out⟩

/-- The block is idle, its window is at base, and these events are to come. -/
structure State.IdleAt (s : State) (base : Nat) (es : List Event) : Prop where
  busy : s.busy = false
  base : s.hhBase = base
  agenda : s.agenda = es

/-- From an idle block whose registers satisfy P the events es lead to an idle block whose registers satisfy Q. -/
def Runs (base : Nat) (P : View → Prop) (es : List Event) (Q : View → Prop) : Prop :=
  ∀ s rest, s.IdleAt base (es ++ rest) → P s.view →
    ∃ t, runSteps es.length s = .next t ∧ t.IdleAt base rest ∧ Q t.view

section
variable {base : Nat} {P Q R : View → Prop}

theorem Runs.mono {es : List Event} (h : Runs base P es Q) (hp : ∀ v, R v → P v) : Runs base R es Q :=
  fun s rest hs hr => h s rest hs (hp _ hr)

theorem Runs.nil : Runs base P [] P := fun s _ hs hp => ⟨s, rfl, hs, hp⟩

theorem Runs.append {es fs : List Event} (h : Runs base P es Q) (h' : Runs base Q fs R) : Runs base P (es ++ fs) R := by
  intro s rest hs hp
  rw [List.append_assoc] at hs
  obtain ⟨t, hrun, ht, hq⟩ := h s (fs ++ rest) hs hp
  obtain ⟨u, hrun', hu, hr⟩ := h' t rest ht hq
  exact ⟨u, by rw [List.length_append, runSteps_add _ _ hrun, hrun'], hu, hr⟩

/-! ## Loading DIN (R79) -/

theorem Runs.wr_din (i : Fin 4) (x : Word) :
    Runs base (fun v => Q { v with din := v.din.set i x }) [wr base (8 * i.val) x] Q := by
  rintro s rest ⟨hb, rfl, ha⟩ hq
  exact ⟨_, runSteps_succ 0 (step_wr_din_idle i hb ha), ⟨hb, rfl, rfl⟩, hq⟩

theorem Runs.ldKey (key : Lanes) : Runs base (fun v => Q { v with din := key }) (ldKey base key) Q :=
  (Runs.wr_din 0 key.l0).append ((Runs.wr_din 1 key.l1).append ((Runs.wr_din 2 key.l2).append (Runs.wr_din 3 key.l3)))

/-! ## A command and the wait for it (R78, R79) -/

/-- STATUS polls change nothing but the list of values read (R54). -/
theorem runSteps_polls (n : Nat) {s : State} {rest : List Event}
    (ha : s.agenda = List.replicate n (rd s.hhBase 0x48) ++ rest) :
    ∃ vs, runSteps n s = .next { s with agenda := rest, reads := vs } := by
  induction n generalizing s with
  | zero => exact ⟨s.reads, by rw [← show s.agenda = rest from ha]; rfl⟩
  | succ n ih =>
    have hstep := step_rd (s := s) (off := 0x48) (by decide) (by decide) ha
    obtain ⟨vs, hrun⟩ :=
      ih (s := (s.setAgenda (List.replicate n (rd s.hhBase 0x48) ++ rest)).logRead (windowValue s 0x48)) rfl
    exact ⟨vs, (runSteps_succ n hstep).trans hrun⟩

/-- Admission accepts i from P and leaves the registers as in R (R203). -/
def Accepts (P : View → Prop) (i : Instr) (R : View → Prop) : Prop :=
  ∀ s, P s.view → ∃ a : State, admission i s = a.accept (encode i) ∧ a.hhPage = s.hhPage ∧ a.agenda = s.agenda ∧ R a.view

/-- The completion of i from R gives a state whose registers satisfy Q (R204). -/
def Completes (R : View → Prop) (i : Instr) (Q : View → Prop) : Prop :=
  ∀ s, s.busy = true → R s.view → ∃ t, exec i s = .next t ∧ Q t.view

theorem accepts_start {i : Instr} (hi : isStart i = true) (h : ∀ v, P v → R { v with err := false }) : Accepts P i R :=
  fun s hp => ⟨s.clearError, admission_start s hi, rfl, rfl, h _ hp⟩

theorem accepts_data {i : Instr} (hi : isStart i = false) (hlen : ¬ BadLen i)
    (h : ∀ v, P v → v.err = false ∧ v.live = true ∧ v.mode = modeOf i) : Accepts P i P := by
  intro s hp
  obtain ⟨herr, hlive, hmode⟩ := h _ hp
  exact ⟨s, admission_accepted hi herr hlive hmode.symm hlen, rfl, rfl, hp⟩

/-- The polls, the turn of the pending command, and the read that sees BUSY = 0 (R79). -/
theorem runSteps_waitIdle {i : Instr} (n : Nat) {s : State} {rest : List Event} (hb : s.busy = true)
    (hp : s.pend = some (encode i)) (hwf : i.wf = true) (hdone : Completes R i Q) (hr : R s.view)
    (ha : s.agenda = waitIdle s.hhBase n ++ rest) :
    ∃ t, runSteps (n + 2) s = .next t ∧ t.IdleAt s.hhBase rest ∧ Q t.view := by
  rw [waitIdle, List.append_assoc] at ha
  obtain ⟨vs, hpolls⟩ := runSteps_polls n ha
  obtain ⟨u, hexec, hq⟩ := hdone { s with agenda := rd s.hhBase 0x48 :: rest, reads := vs } hb hr
  obtain ⟨hturn, hidle, hbase, hagenda, -⟩ :=
    onComplete_exec (s := { s with agenda := rd s.hhBase 0x48 :: rest, reads := vs }) hb hp hwf hexec
  have hread := step_rd (s := u) (off := 0x48) (by decide) (by decide) (hbase ▸ hagenda)
  exact ⟨_, runSteps_snoc (runSteps_snoc hpolls ((step_complete rfl).trans hturn)) hread, ⟨hidle, hbase, rfl⟩, hq⟩

theorem Runs.issue {i : Instr} (n : Nat) (hwf : i.wf = true) (haccept : Accepts P i R) (hdone : Completes R i Q) :
    Runs base P (issue base n i) Q := by
  rintro s rest ⟨hb, rfl, ha⟩ hp
  obtain ⟨a, hadm, hpage, hagenda, hr⟩ := haccept (s.setAgenda (waitIdle s.hhBase n ++ rest)) hp
  have hbase : a.hhBase = s.hhBase := congrArg (Config.windowBytes * ·) hpage
  have hsubmit : step s = .next (a.accept (encode i)) :=
    (step_wr_cmd_admission hb (decode_cmdWrite_encode hwf) ha).trans (congrArg _ hadm)
  obtain ⟨t, hrun, ht, hq⟩ := runSteps_waitIdle n (s := a.accept (encode i)) rfl rfl hwf hdone hr (hbase ▸ hagenda)
  have hlen : (Machine.issue s.hhBase n i).length = n + 2 + 1 := by simp [Machine.issue, waitIdle]
  exact ⟨t, by rw [hlen, runSteps_succ _ hsubmit, hrun], hbase ▸ ht, hq⟩

/-! ## Reading the result (R144, R162) -/

/-- The words of OUT that hold a result of a width, by their index. -/
def outIndices : Width → List (Fin 4)
  | .w64 => [0]
  | .w128 => [0, 1]
  | .w256 => [0, 1, 2, 3]

theorem resultWords_eq (w : Width) (o : Lanes) : resultWords w o = (outIndices w).map o.get := by cases w <;> rfl

theorem readResult_eq (base : Nat) (w : Width) :
    readResult base w = (outIndices w).map fun k => rd base (0x20 + 8 * k.val) := by cases w <;> rfl

theorem runSteps_readOuts (ks : List (Fin 4)) {s : State} {rest : List Event}
    (ha : s.agenda = ks.map (fun k => rd s.hhBase (0x20 + 8 * k.val)) ++ rest) :
    runSteps ks.length s = .next { s with agenda := rest, reads := (ks.map s.out.get).reverse ++ s.reads } := by
  induction ks generalizing s with
  | nil => rw [← show s.agenda = rest from ha]; rfl
  | cons k ks ih =>
    rw [List.length_cons, runSteps_succ _ (step_rd_out k ha), ih rfl, List.map_cons, List.reverse_cons, List.append_assoc]
    rfl

/-- A sequence that ends in the reads of OUT returns, last, the words that OUT holds. -/
theorem Runs.readResult {es : List Event} (h : Runs base P es Q) (w : Width) {s : State}
    (hs : s.IdleAt base (es ++ readResult base w)) (hp : P s.view) :
    ∃ t, runSteps s.agenda.length s = .next t ∧ t.agenda = [] ∧ t.busy = false ∧ Q t.view ∧
      t.reads.take (resultWords w t.out).length = (resultWords w t.out).reverse := by
  obtain ⟨u, hrun, ⟨hb, hbase, ha⟩, hq⟩ := h s _ hs hp
  rw [readResult_eq, ← hbase, ← List.append_nil (List.map _ _)] at ha
  have hall := (runSteps_add es.length (outIndices w).length hrun).trans (runSteps_readOuts (outIndices w) ha)
  have hlen : s.agenda.length = es.length + (outIndices w).length := by
    rw [hs.agenda, List.length_append, readResult_eq, List.length_map]
  refine ⟨_, (congrArg (runSteps · s) hlen).trans hall, rfl, hb, hq, ?_⟩
  rw [resultWords_eq, List.length_map]
  exact List.take_left' (by simp)

/-! ## The one-shot sequence (R162) -/

/-- A RAW computation without an error, its lanes at h. -/
def RawAt (h : HashState) (v : View) : Prop := v.err = false ∧ v.live = true ∧ v.mode = .raw ∧ v.hash = some h

/-- The same with a block loaded. -/
def RawLoaded (h : HashState) (d : Lanes) (v : View) : Prop := RawAt h v ∧ v.din = d

theorem runs_ldKey_raw (h : HashState) (d : Lanes) : Runs base (RawAt h) (ldKey base d) (RawLoaded h d) :=
  (Runs.ldKey d).mono fun _ hv => ⟨hv, rfl⟩

theorem accepts_raw {i : Instr} {h : HashState} {d : Lanes} (hi : isStart i = false) (hm : modeOf i = .raw)
    (hlen : ¬ BadLen i) : Accepts (RawLoaded h d) i (RawLoaded h d) :=
  accepts_data hi hlen fun _ ⟨⟨herr, hlive, hmode, _⟩, _⟩ => ⟨herr, hlive, hmode.trans hm.symm⟩

theorem runs_reset (n : Nat) (key : Lanes) :
    Runs base (fun _ => True) (ldKey base key ++ issue base n .reset) (RawAt (initState key)) := by
  have hload : Runs base (fun _ => True) (ldKey base key) fun v => v.din = key := (Runs.ldKey key).mono fun _ _ => rfl
  have haccept : Accepts (fun v => v.din = key) .reset fun v => v.err = false ∧ v.din = key :=
    accepts_start rfl fun v hv => ⟨rfl, hv⟩
  refine hload.append (.issue n rfl haccept fun s hb ⟨herr, hdin⟩ => ⟨_, exec_busy .reset s hb, herr, rfl, rfl, ?_⟩)
  exact congrArg (fun d => some (initState d)) hdin

/-- One block loaded and absorbed (R109). -/
theorem runs_updatePacket (n : Nat) (h : HashState) {b : List Byte} (hb : b.length = 32) :
    Runs base (RawAt h) (ldBytes base b ++ issue base n .updatePacket) (RawAt (update h (lanesOf b))) := by
  rw [ldBytes, hb, Nat.sub_self, List.replicate_zero, List.append_nil]
  refine (runs_ldKey_raw h _).append (.issue n rfl (accepts_raw rfl rfl id) ?_)
  rintro s hbusy ⟨⟨herr, hlive, hmode, hs⟩, hdin⟩
  exact ⟨_, (exec_busy .updatePacket s hbusy).trans (withLanes_some hs _), herr, hlive, hmode,
    congrArg (fun d => some (update h d)) hdin⟩

theorem runs_issueBlocks (polls : Nat → Nat) (j q : Nat) (h : HashState) {data : List Byte} (hq : 32 * q ≤ data.length) :
    Runs base (RawAt h) (issueBlocks base polls j q data) (RawAt (absorbBlocks q h data)) := by
  induction q generalizing j h data with
  | zero => exact .nil
  | succ q ih =>
    have hblock : (data.take 32).length = 32 := by rw [List.length_take]; omega
    exact (runs_updatePacket (polls j) h hblock).append (ih (j + 1) _ (by rw [List.length_drop]; omega))

/-- The bytes read back from a loaded string are the string, whatever pads it. -/
theorem laneBytes_lanesOf_append {b c : List Byte} (hb : b.length ≤ 32) : laneBytes (lanesOf (b ++ c)) b.length = b := by
  apply List.ext_getElem
  · exact laneBytes_length _ _
  · intro k _ hk
    have hk32 : k < 32 := by omega
    simp [laneBytes, laneByte_lanesOf _ hk32, List.getElem?_append_left hk, hk]

/-- The tail loaded and absorbed (R127). -/
theorem runs_updateRemainder (n : Nat) (h : HashState) {b : List Byte} (h0 : b.length ≠ 0) (h32 : b.length < 32) :
    Runs base (RawAt h) (ldBytes base b ++ issue base n (.updateRemainder b.length)) (RawAt (updateRemainder h b)) := by
  have hwf : (Instr.updateRemainder b.length).wf = true := decide_eq_true (by omega)
  have hlen : ¬ BadLen (.updateRemainder b.length) := fun hbad => hbad.elim h0 (Nat.not_le.2 h32)
  refine (runs_ldKey_raw h _).append (.issue n hwf (accepts_raw rfl rfl hlen) ?_)
  rintro s hbusy ⟨⟨herr, hlive, hmode, hs⟩, hdin⟩
  refine ⟨_, (exec_busy _ s hbusy).trans (withLanes_some hs _), herr, hlive, hmode, ?_⟩
  have hbytes : laneBytes s.din b.length = b := by
    rw [show s.din = _ from hdin]
    exact laneBytes_lanesOf_append (by omega)
  exact congrArg (fun x => some (updateRemainder h x)) hbytes

/-- OUT holds the result words of a width for the lanes h, and there is no error. -/
def ResultAt (w : Width) (h : HashState) (v : View) : Prop := v.err = false ∧ v.out = finLayout w h

theorem exec_finalizeCmd (w : Width) {s : State} {h : HashState} (hb : s.busy = true) (hs : s.hash = some h) :
    exec (finalizeCmd w) s = .next ((s.setOut (finLayout w h)).consume).finish := by
  rw [exec_busy _ s hb]
  cases w <;> exact finalizeWith_some hs _

theorem runs_finalize (n : Nat) (w : Width) (h : HashState) :
    Runs base (RawAt h) (issue base n (finalizeCmd w)) (ResultAt w h) := by
  have hwf : (finalizeCmd w).wf = true := by cases w <;> rfl
  have haccept : Accepts (RawAt h) (finalizeCmd w) (RawAt h) := by
    refine accepts_data (by cases w <;> rfl) (by cases w <;> exact id) fun _ ⟨herr, hlive, hmode, _⟩ => ⟨herr, hlive, ?_⟩
    cases w <;> exact hmode
  exact .issue n hwf haccept fun s hb ⟨herr, _, _, hs⟩ => ⟨_, exec_finalizeCmd w hb hs, herr, rfl⟩

/-- The tail of the data, where there is one (R160). -/
theorem runs_tail (n : Nat) (key : Lanes) (data : List Byte) :
    Runs base (RawAt (absorbed (initState key) data))
      (if data.length % 32 = 0 then []
        else ldBytes base (tailOf data) ++ issue base n (.updateRemainder (tailOf data).length))
      (RawAt (processAll data key)) := by
  rw [processAll_eq, finished]
  have hlen := tailOf_length data
  split
  case isTrue h0 =>
    rw [if_pos (hlen.trans h0)]
    exact .nil
  case isFalse h0 =>
    rw [if_neg (by omega)]
    exact runs_updateRemainder n _ (by omega) (by omega)

/-! ## The streamed sequence (R178) -/

/-- A CAT computation without an error whose accumulator holds ys. -/
def CatAt (key : Lanes) (ys : List Byte) (v : View) : Prop :=
  v.err = false ∧ v.live = true ∧ v.mode = .cat ∧
    ∃ h, v.hash = some h ∧ (⟨h, v.buf, v.cnt.toNat⟩ : Accumulator).Holds (initState key) ys

theorem CatAt.cnt {key : Lanes} {ys : List Byte} {v : View} (hv : CatAt key ys v) : v.cnt.toNat = ys.length % 32 :=
  have ⟨_, _, _, _, _, hholds⟩ := hv
  hholds.count

theorem runs_catStart (n : Nat) (key : Lanes) :
    Runs base (fun _ => True) (ldKey base key ++ issue base n .catStart) (CatAt key []) := by
  have hload : Runs base (fun _ => True) (ldKey base key) fun v => v.din = key := (Runs.ldKey key).mono fun _ _ => rfl
  have haccept : Accepts (fun v => v.din = key) .catStart fun v => v.err = false ∧ v.din = key :=
    accepts_start rfl fun v hv => ⟨rfl, hv⟩
  refine hload.append (.issue n rfl haccept fun s hb ⟨herr, hdin⟩ => ?_)
  refine ⟨_, exec_busy .catStart s hb, herr, rfl, rfl, _, congrArg (fun d => some (initState d)) hdin, ?_⟩
  exact ⟨rfl, rfl, bufBytes_zero _⟩

/-- One chunk loaded and appended (R172). -/
theorem runs_catAppend (n : Nat) (key : Lanes) (ys : List Byte) {b : List Byte} (hb : b.length ≤ 32) :
    Runs base (CatAt key ys) (ldBytes base b ++ issue base n (.catAppend b.length)) (CatAt key (ys ++ b)) := by
  have hwf : (Instr.catAppend b.length).wf = true := decide_eq_true (by omega)
  have hlen : ¬ BadLen (.catAppend b.length) := Nat.not_le.2 (Nat.lt_succ_of_le hb)
  have hload : Runs base (CatAt key ys) (ldBytes base b) fun v => CatAt key ys v ∧ laneBytes v.din b.length = b :=
    (Runs.ldKey _).mono fun _ hv => ⟨hv, laneBytes_lanesOf_append hb⟩
  have haccept : Accepts (fun v => CatAt key ys v ∧ laneBytes v.din b.length = b) (.catAppend b.length)
      fun v => CatAt key ys v ∧ laneBytes v.din b.length = b :=
    accepts_data rfl hlen fun _ ⟨⟨herr, hlive, hmode, _⟩, _⟩ => ⟨herr, hlive, hmode⟩
  refine hload.append (.issue n hwf haccept ?_)
  rintro s hbusy ⟨⟨herr, hlive, hmode, h, hs, hholds⟩, hbytes⟩
  obtain ⟨a, happend, ha⟩ := hholds.catAppend b
  have hdone : exec (.catAppend b.length) s = .next ((s.setHash a.h).setBuffer a.buf (BitVec.ofNat 5 a.c)).finish := by
    rw [exec_busy _ s hbusy]
    exact appendBytes_some hs ((congrArg _ hbytes).trans happend)
  have hheld : (⟨a.h, a.buf, (BitVec.ofNat 5 a.c).toNat⟩ : Accumulator).Holds (initState key) (ys ++ b) := by
    rw [ha.holds.toNat_ofNat_count]
    exact ha.holds
  exact ⟨_, hdone, herr, hlive, hmode, a.h, rfl, hheld⟩

theorem runs_issueAppends (polls : Nat → Nat) (j : Nat) (key : Lanes) (ys : List Byte) {chunks : List (List Byte)}
    (hchunks : ∀ b ∈ chunks, b.length ≤ 32) :
    Runs base (CatAt key ys) (issueAppends base polls j chunks) (CatAt key (ys ++ chunks.flatten)) := by
  induction chunks generalizing j ys with
  | nil =>
    rw [List.flatten_nil, List.append_nil]
    exact .nil
  | cons b bs ih =>
    obtain ⟨hb, hbs⟩ := List.forall_mem_cons.1 hchunks
    rw [List.flatten_cons, ← List.append_assoc]
    exact (runs_catAppend (polls j) key ys hb).append (ih (j + 1) (ys ++ b) hbs)

theorem exec_catFinishCmd (w : Width) {s : State} {h h' : HashState} (hb : s.busy = true) (hs : s.hash = some h)
    (hfinish : finishCopy h s.buf s.cnt.toNat = some h') :
    exec (catFinishCmd w) s = .next (s.setOut (finLayout w h')).finish := by
  rw [exec_busy _ s hb]
  cases w <;> exact finishWith_of_finishCopy hs hfinish _

theorem runs_catFinish (n : Nat) (w : Width) (key : Lanes) (data : List Byte) :
    Runs base (CatAt key data) (issue base n (catFinishCmd w))
      fun v => CatAt key data v ∧ ResultAt w (processAll data key) v := by
  have hwf : (catFinishCmd w).wf = true := by cases w <;> rfl
  have haccept : Accepts (CatAt key data) (catFinishCmd w) (CatAt key data) := by
    refine accepts_data (by cases w <;> rfl) (by cases w <;> exact id) fun _ ⟨herr, hlive, hmode, _⟩ => ⟨herr, hlive, ?_⟩
    cases w <;> exact hmode
  refine .issue n hwf haccept ?_
  rintro s hb ⟨herr, hlive, hmode, h, hs, hholds⟩
  exact ⟨_, exec_catFinishCmd w hb hs hholds.finishCopy, ⟨herr, hlive, hmode, h, hs, hholds⟩, herr, rfl⟩

end

end Sys2Proof.Machine

namespace Sys2Proof.Proofs
open Sys2Proof.Machine

/-- Settles O51: key and RESET, the blocks, the tail, FINALIZE, the reads. -/
theorem oneShotSequenceComputesTheHash : Obligations.OneShotSequenceComputesTheHash := by
  intro s polls w data key hb ha
  have hrun : Runs s.hhBase (fun _ => True) _ (ResultAt w (processAll data key)) :=
    (((runs_reset (polls 0) key).append
      (runs_issueBlocks polls 1 (data.length / 32) (initState key) (by omega))).append
        (runs_tail (polls (data.length / 32 + 1)) key data)).append
          (runs_finalize (polls (data.length / 32 + 2)) w (processAll data key))
  obtain ⟨t, hsteps, hagenda, hidle, ⟨herr, hout⟩, hreads⟩ := hrun.readResult w ⟨hb, rfl, ha⟩ trivial
  have hhash : t.out = hashOf w data key := hout
  exact ⟨t, hsteps, hagenda, hidle, herr, hhash, by rw [hreads, hhash]⟩

/-- Settles O52: key and CAT_START, the chunks, CAT_FINISH on the accumulator that holds them all, the reads. -/
theorem streamedSequenceComputesTheHash : Obligations.StreamedSequenceComputesTheHash := by
  intro s polls w chunks key hb hchunks ha
  have hrun : Runs s.hhBase (fun _ => True) _ fun v =>
      CatAt key chunks.flatten v ∧ ResultAt w (processAll chunks.flatten key) v :=
    ((runs_catStart (polls 0) key).append (runs_issueAppends polls 1 key [] hchunks)).append
      (runs_catFinish (polls (chunks.length + 1)) w key chunks.flatten)
  obtain ⟨t, hsteps, hagenda, hidle, ⟨hcat, herr, hout⟩, hreads⟩ := hrun.readResult w ⟨hb, rfl, ha⟩ trivial
  have hcnt := hcat.cnt
  obtain ⟨-, hlive, hmode, -⟩ := hcat
  have hhash : t.out = hashOf w chunks.flatten key := hout
  exact ⟨t, hsteps, hagenda, hidle, herr, hlive, hmode, hcnt, hhash, by rw [hreads, hhash]⟩

end Sys2Proof.Proofs
end
